-- ==== Sys2Proof/Word.lean ====
section
/-! DEFINITION. The word types of CRCFE (`00_scope.md` R8; `30_encoding.md` R45). All values are unsigned. -/

namespace Sys2Proof

/-- 8 bits, an unsigned integer 0 to 255 (R8). -/
abbrev Byte := BitVec 8

/-- 16 bits, an unsigned integer 0 to 65535 (R8). -/
abbrev Word := BitVec 16

/-- The command word `CMD[50:0]` (R45). -/
abbrev CmdWord := BitVec 51

end Sys2Proof
end

