-- ==== Sys2Proof/Config.lean ====
section
/-! DEFINITION. What is fixed for an instance of the block: the constants the spec gives a value (`00_scope.md` R5),
the parameters it leaves open (R6), and the one free value (`93_implementation_defined.md` U5).
An open parameter and a free value are opaque constants without a body: nothing can be proved about which value one
has, so a statement about it holds for every value. -/

namespace Sys2Proof

/-- CRC_INIT: the register at the start of every checksum computation (R5). -/
@[simp] abbrev Config.crcInit : Word := 0xFFFF#16
/-- POLY: XORed in after a right shift when the bit shifted out was 1 (R5). -/
@[simp] abbrev Config.poly : Word := 0xA001#16
/-- FC_RHR: function code "read holding" (R5). -/
@[simp] abbrev Config.fcRhr : Byte := 0x03#8
/-- FC_RIR: function code "read input" (R5). -/
@[simp] abbrev Config.fcRir : Byte := 0x04#8
/-- FC_WSR: function code "Write Single Register" (R5). -/
@[simp] abbrev Config.fcWsr : Byte := 0x06#8
/-- CAL_ADDR: the reserved calibration address (R5). -/
@[simp] abbrev Config.calAddr : Byte := 0xF8#8
/-- LEN_REG: bytes of a read-registers or write-single-register frame (R5). -/
@[simp] abbrev Config.lenReg : Nat := 8
/-- LEN_USR: bytes of a user-function frame (R5). -/
@[simp] abbrev Config.lenUsr : Nat := 4

/-- FC_CAL: the vendor code "calibration", an open parameter (R6, U2, D10). UNVERIFIED value; log 2. -/
opaque Config.fcCal : Byte

/-- How far FC_RST lies above FC_CAL (modulo 256), less one. It exists only to code the spec's one constraint,
FC_CAL != FC_RST (R6): the pairs (FC_CAL, gap) are exactly the pairs of two different codes. Log 2. -/
opaque Config.fcRstGap : Fin 255

/-- FC_RST: the vendor code "energy reset", an open parameter different from FC_CAL (R6, D10). Log 2. -/
def Config.fcRst : Byte := Config.fcCal + 1#8 + BitVec.ofNat 8 Config.fcRstGap.val

/-- REG_THRESHOLD: used by the pseudo-instruction SETALARM only (R6, D26). Log 2. -/
opaque Config.regThreshold : Word
/-- REG_ADDRESS: used by the pseudo-instruction SETADDR only (R6, D26). Log 2. -/
opaque Config.regAddress : Word
/-- REG_HOLD_START: used by the pseudo-instructions GETALARM and GETADDR only (R6, D26). Log 2. -/
opaque Config.regHoldStart : Word

/-- The values on the output ports `CRC_OUT`, `FB_OUT`, `FLEN_OUT`, `RLEN_OUT` (`10_state.md` R22). -/
structure OutputPorts where
  crc  : BitVec 16
  fb   : BitVec 64
  flen : BitVec 4
  rlen : BitVec 18
  deriving DecidableEq, Repr, Inhabited

/-- FREE VALUE: what those four ports show while `BUSY` = 1, "not specified" (`20_memory.md` R40; U5: any value).
Its arguments are what the registers behind the ports hold, and `IDX` and `BIT`. Log 4. -/
opaque Config.busyOutputs : OutputPorts → BitVec 3 → BitVec 3 → OutputPorts

end Sys2Proof
end

