-- ==== Sys2Proof/Syntax.lean ====
section
/-! DEFINITION. The commands: one constructor per row of `spec/opcode_table.json`.
A field that a command ignores (`30_encoding.md` R47) is kept, so that no bit of a command word is lost in decoding. -/

namespace Sys2Proof

/-- A command, as the port decodes it (`30_encoding.md` R46, R52). -/
inductive Instr where
  /-- RDH: `op` = 0, `fc` = 3 (R82). -/
  | rdh (addr : Byte) (start count : Word)
  /-- RDI: `op` = 0, `fc` = 4 (R83). -/
  | rdi (addr : Byte) (start count : Word)
  /-- RDREG.ILLEGAL: `op` = 0, `fc` neither 3 nor 4 (R53, R90). -/
  | rdregIllegal (addr fc : Byte) (a b : Word)
  /-- WSR: `op` = 1; the `fc` field is ignored (R85). -/
  | wsr (addr fc : Byte) (reg value : Word)
  /-- USR: `op` = 2, for every one of the 256 values of `fc`; `a` and `b` ignored (R86). -/
  | usr (addr fc : Byte) (a b : Word)
  /-- USR.CAL: the name of USR with `fc` = FC_CAL; `addr`, `a`, `b` ignored (R87). -/
  | usrCal (addr : Byte) (a b : Word)
  /-- USR.RST: the name of USR with `fc` = FC_RST; `a`, `b` ignored (R87). -/
  | usrRst (addr : Byte) (a b : Word)
  /-- CRC.INIT: `op` = 3; all other fields ignored (R67). -/
  | crcInit (addr fc : Byte) (a b : Word)
  /-- CRC.UPD: `op` = 4; `byte` is `b[7:0]`, `bHi` is the ignored `b[15:8]` (R68). -/
  | crcUpd (addr fc : Byte) (a : Word) (bHi byte : Byte)
  /-- RESERVED.5: `op` = 5 (R54, R118). -/
  | reserved5 (addr fc : Byte) (a b : Word)
  /-- RESERVED.6: `op` = 6 (R54, R118). -/
  | reserved6 (addr fc : Byte) (a b : Word)
  /-- RESERVED.7: `op` = 7 (R54, R118). -/
  | reserved7 (addr fc : Byte) (a b : Word)
  deriving DecidableEq, Repr

end Sys2Proof
end

