-- ==== Sys2Proof/Decode.lean ====
section
/-! DEFINITION. The command word: its fields, the decoder (total on the 51-bit port word, `30_encoding.md` R52), the
encoder, and the form under the names USR.CAL and USR.RST (R87). -/

namespace Sys2Proof

/-- `op` = `CMD[50:48]` (R45). -/
def cmdOp (w : CmdWord) : BitVec 3 := w.extractLsb' 48 3
/-- `addr` = `CMD[47:40]` (R45). -/
def cmdAddr (w : CmdWord) : Byte := w.extractLsb' 40 8
/-- `fc` = `CMD[39:32]` (R45). -/
def cmdFc (w : CmdWord) : Byte := w.extractLsb' 32 8
/-- `a` = `CMD[31:16]` (R45). -/
def cmdA (w : CmdWord) : Word := w.extractLsb' 16 16
/-- `b` = `CMD[15:0]` (R45). -/
def cmdB (w : CmdWord) : Word := w.extractLsb' 0 16

/-- A command word from its fields, `op` most significant (R45). -/
def packCmd (op : BitVec 3) (addr fc : Byte) (a b : Word) : CmdWord := op ++ addr ++ fc ++ a ++ b

/-- The decoder, in the order of R52: `op` first, then, for `op` = 0 only, `fc`. A word with `op` = 2 is USR for every
`fc`: USR.CAL and USR.RST are "names for two values of one command, not separate commands" (R52). -/
def decode (w : CmdWord) : Instr :=
  if cmdOp w = 0#3 then
    if cmdFc w = Config.fcRhr then .rdh (cmdAddr w) (cmdA w) (cmdB w)
    else if cmdFc w = Config.fcRir then .rdi (cmdAddr w) (cmdA w) (cmdB w)
    else .rdregIllegal (cmdAddr w) (cmdFc w) (cmdA w) (cmdB w)
  else if cmdOp w = 1#3 then .wsr (cmdAddr w) (cmdFc w) (cmdA w) (cmdB w)
  else if cmdOp w = 2#3 then .usr (cmdAddr w) (cmdFc w) (cmdA w) (cmdB w)
  else if cmdOp w = 3#3 then .crcInit (cmdAddr w) (cmdFc w) (cmdA w) (cmdB w)
  else if cmdOp w = 4#3 then
    .crcUpd (cmdAddr w) (cmdFc w) (cmdA w) ((cmdB w).extractLsb' 8 8) ((cmdB w).extractLsb' 0 8)
  else if cmdOp w = 5#3 then .reserved5 (cmdAddr w) (cmdFc w) (cmdA w) (cmdB w)
  else if cmdOp w = 6#3 then .reserved6 (cmdAddr w) (cmdFc w) (cmdA w) (cmdB w)
  else .reserved7 (cmdAddr w) (cmdFc w) (cmdA w) (cmdB w)

/-- Why bits handed over from outside are no command word. -/
inductive DecodeReject where
  /-- A bit above bit 50 is set: "a value wider than its field cannot be presented" (R51; U9: refuse; log 11). -/
  | widerThanPort
  deriving DecidableEq, Repr

/-- Bits from outside as a word of the 51-bit port, or the reason why they are none. -/
def portWord (bits : Nat) : Except DecodeReject CmdWord :=
  if bits < 2 ^ 51 then .ok (BitVec.ofNat 51 bits) else .error .widerThanPort

/-- The decoder on bits of any length. -/
def decodeBits (bits : Nat) : Except DecodeReject Instr :=
  match portWord bits with
  | .ok w => .ok (decode w)
  | .error r => .error r

/-- The decoder on a word numbered as `spec/opcode_table.json` numbers it: bit 0 is the least significant bit of the
51-bit word, and the bits above `nbits` are 0. -/
def decodeTableWord (nbits w : Nat) : Option Instr :=
  match decodeBits (w % 2 ^ nbits) with
  | .ok i => some i
  | .error _ => none

/-- The word of a command: `op` as R46 numbers it, every other field where R45 puts it. -/
def encode : Instr → CmdWord
  | .rdh addr start count => packCmd 0#3 addr Config.fcRhr start count
  | .rdi addr start count => packCmd 0#3 addr Config.fcRir start count
  | .rdregIllegal addr fc a b => packCmd 0#3 addr fc a b
  | .wsr addr fc reg value => packCmd 1#3 addr fc reg value
  | .usr addr fc a b => packCmd 2#3 addr fc a b
  | .usrCal addr a b => packCmd 2#3 addr Config.fcCal a b
  | .usrRst addr a b => packCmd 2#3 addr Config.fcRst a b
  | .crcInit addr fc a b => packCmd 3#3 addr fc a b
  | .crcUpd addr fc a bHi byte => packCmd 4#3 addr fc a (bHi ++ byte)
  | .reserved5 addr fc a b => packCmd 5#3 addr fc a b
  | .reserved6 addr fc a b => packCmd 6#3 addr fc a b
  | .reserved7 addr fc a b => packCmd 7#3 addr fc a b

/-- The command a term names: USR.CAL and USR.RST are USR with that function code (R52, R87); every other term names
itself. Decoding a word always answers a term that names itself. -/
def Instr.core : Instr → Instr
  | .usrCal addr a b => .usr addr Config.fcCal a b
  | .usrRst addr a b => .usr addr Config.fcRst a b
  | .rdh addr start count => .rdh addr start count
  | .rdi addr start count => .rdi addr start count
  | .rdregIllegal addr fc a b => .rdregIllegal addr fc a b
  | .wsr addr fc reg value => .wsr addr fc reg value
  | .usr addr fc a b => .usr addr fc a b
  | .crcInit addr fc a b => .crcInit addr fc a b
  | .crcUpd addr fc a bHi byte => .crcUpd addr fc a bHi byte
  | .reserved5 addr fc a b => .reserved5 addr fc a b
  | .reserved6 addr fc a b => .reserved6 addr fc a b
  | .reserved7 addr fc a b => .reserved7 addr fc a b

end Sys2Proof
end

