-- ==== Sys2Proof/Machine/State.lean ====
section
/-! DEFINITION. The state of CRCFE (`10_state.md` R10, R18, R19), its reset value (R24), the host's side of the ports
(R23), and the reasons a step can stop. -/

namespace Sys2Proof.Machine

/-- The frame buffer's contents: the bytes that are not 0x00, by rising address (`10_state.md` R12; `20_memory.md` R30).
An address that is not listed reads as 0x00, the buffer's reset content (R24; log 12). -/
abbrev Memory := List Host.Cell

/-- The canonical form: addresses strictly rising and below 8 (R30), no entry equal to what an unlisted address reads. -/
abbrev Memory.wf (m : Memory) : Prop :=
  m.Pairwise (fun c d => c.1 < d.1) ∧ ∀ c ∈ m, c.1 < 8 ∧ c.2 ≠ 0x00#8

/-- `PHASE`, the sequencer's phase (`10_state.md` R18). -/
inductive Phase where
  | idle
  | fill
  | xor
  | shift
  | trailer
  deriving DecidableEq, Repr

/-- The input ports in one clock (`10_state.md` R23): `RST`, `CMD_VALID`, `CMD[50:0]`. -/
structure Pins where
  rst      : Bool
  cmdValid : Bool
  cmd      : CmdWord
  deriving DecidableEq, Repr

/-- One action of the host (`10_state.md` R17; `70_reset_and_hazards.md` R135; log 1). -/
inductive HostAction where
  /-- Present a command once the block is idle and wait for its completion: the transaction level (D1, R138). -/
  | command (w : CmdWord)
  /-- The host action RESET (R135). -/
  | reset
  /-- One clock of the bit-serial refinement with these input pins (R100). -/
  | clock (p : Pins)
  deriving DecidableEq, Repr

/-- The block's state: what the spec gives the block and nothing else (`10_state.md` R10, R18, R19; D3). A command word is
no part of it: it is an input, supplied for each command (R20 (a)). -/
structure Block where
  /-- `CRC`, the checksum register (R11). -/
  crc   : BitVec 16
  /-- `FB[0..7]`, the frame buffer (R12). -/
  fb    : Memory
  /-- `FLEN`, the number of valid bytes in the frame buffer (R13). -/
  flen  : BitVec 4
  /-- `RLEN`, the expected length of the device's response (R14). -/
  rlen  : BitVec 18
  /-- `STATUS.CODE`, the result of the most recent completed command (R15). -/
  code  : BitVec 2
  /-- `STATUS.EFLAG`, 1 if some command since reset has faulted (R15). -/
  eflag : Bool
  /-- `PHASE`, of the bit-serial refinement (R18). -/
  phase : Phase
  /-- `IDX`, the index of the body byte being absorbed (R18). -/
  idx   : BitVec 3
  /-- `BIT`, the shift steps done for the current byte (R18). -/
  bit   : BitVec 3
  /-- `OPR`, the latched command word (R19). -/
  opr   : BitVec 51
  deriving DecidableEq, Repr

/-- The block beside its host: the block's state, and the inputs the host will supply, the next one first. `script` is the
model's own and no state of the block; it stands here because a step of the host's interface takes no input (log 1). -/
structure State extends Block where
  script : List HostAction
  deriving DecidableEq, Repr

/-- The block after reset (R24, R135). -/
def Block.reset : Block where
  crc   := 0xFFFF#16
  fb    := []
  flen  := 0#4
  rlen  := 0#18
  code  := 0#2
  eflag := false
  phase := .idle
  idx   := 0#3
  bit   := 0#3
  opr   := 0#51

/-- The block after reset, and a host that does nothing (log 1). -/
def State.reset : State := ⟨Block.reset, []⟩

/-- `STATUS.BUSY`, "equal to `PHASE != IDLE`", derived and not stored (R15). -/
def Block.busy (b : Block) : Bool := b.phase != .idle

/-- No step of CRCFE stops with a fault: the block is "never stuck" (`42_serial_sequencer.md` R100), its two fault
conditions are state changes after which it is "immediately ready for the next command" (`60_exceptions.md` R119), and
no access fault exists (`20_memory.md` R30). So this type has no constructor. -/
inductive Fault where
  deriving DecidableEq, Repr

/-- Why the model gives a step no meaning. -/
inductive Refusal where
  /-- An instruction that has no meaning in the model yet; raised by no arm of `exec` now. Safe: it stops. -/
  | notModelled (mnemonic : String)
  deriving DecidableEq, Repr

end Sys2Proof.Machine
end

