-- ==== Sys2Proof/Machine/Operands.lean ====
section
/-! DEFINITION. How command fields become frame bytes (`30_encoding.md` R51; `20_memory.md` R31, R32, R37), and the
expected response length (`41_frame_builder.md` R88). -/

namespace Sys2Proof.Machine

/-- `hi8(w) = w[15:8]` (`00_scope.md` R8). -/
def hi8 (w : Word) : Byte := w.extractLsb' 8 8
/-- `lo8(w) = w[7:0]` (`00_scope.md` R8). -/
def lo8 (w : Word) : Byte := w.extractLsb' 0 8
/-- `zext_16(b)` (`00_scope.md` R8). -/
def zext16 (b : Byte) : Word := b.setWidth 16

/-- A 16-bit body field, big-endian: the more significant byte at the lower address (R31). -/
def be16 (w : Word) : List Byte := [hi8 w, lo8 w]
/-- The checksum trailer, little-endian: the less significant byte at the lower address (R32). -/
def le16 (w : Word) : List Byte := [lo8 w, hi8 w]

/-- The body of an 8-byte frame: address, function code, two big-endian words (R37, first and second table). -/
def regBody (addr fc : Byte) (a b : Word) : List Byte := addr :: fc :: (be16 a ++ be16 b)

/-- Byte 0 of a user-function frame: 0xF8 when the function code is FC_CAL, else `addr` (`41_frame_builder.md` R86).
FC_CAL is an argument, so that the rule can be read and tested at any value of the parameter. -/
def usrAddr (fcCal addr fc : Byte) : Byte := if fc = fcCal then Config.calAddr else addr

/-- The body of a 4-byte frame (R37, third table; R86). -/
def usrBody (fcCal addr fc : Byte) : List Byte := [usrAddr fcCal addr fc, fc]

/-- 5 + 2 × count, on naturals, in 18 bits; it never wraps (R88). -/
def rlenRead (count : Word) : BitVec 18 := BitVec.ofNat 18 (5 + 2 * count.toNat)
/-- 8 for a single-register write (R88). -/
def rlenWrite : BitVec 18 := 8#18
/-- 4 for a user function (R88). -/
def rlenUser : BitVec 18 := 4#18

/-- The frame length `n` of a latched command: 4 if `op` = 2, 8 if `op` is 0 or 1 (`42_serial_sequencer.md`,
introduction). No phase that reads it is reached with another `op` (log 5). -/
def frameLen (w : CmdWord) : Nat := if cmdOp w = 2#3 then Config.lenUsr else Config.lenReg

/-- The body bytes the FILL step writes for a latched command (`42_serial_sequencer.md` R102). FILL is reached with
`op` = 0, 1 or 2 only; for another `op` the rule writes nothing after clearing (log 5). -/
def fillBody (w : CmdWord) : List Byte :=
  if cmdOp w = 0#3 then regBody (cmdAddr w) (cmdFc w) (cmdA w) (cmdB w)
  else if cmdOp w = 1#3 then regBody (cmdAddr w) Config.fcWsr (cmdA w) (cmdB w)
  else if cmdOp w = 2#3 then usrBody Config.fcCal (cmdAddr w) (cmdFc w)
  else []

/-- `RLEN` for a latched command (`42_serial_sequencer.md` R105). TRAILER is reached with `op` = 0, 1 or 2 only; for
another `op` the model leaves the register's value of "no frame", 0 (log 5). -/
def fillRlen (w : CmdWord) : BitVec 18 :=
  if cmdOp w = 0#3 then rlenRead (cmdB w)
  else if cmdOp w = 1#3 then rlenWrite
  else if cmdOp w = 2#3 then rlenUser
  else 0#18

end Sys2Proof.Machine
end

