-- ==== Sys2Proof/Machine/Crc.lean ====
section
/-! DEFINITION. The checksum engine as pure functions (`40_crc_engine.md` R61 to R66), and its two derived forms
(R70 table, R73 one data bit per step). -/

namespace Sys2Proof.Machine

/-- One iteration: "if the low bit is set, shift right and XOR with 0xA001, else shift right" (R62). -/
def bitstep (c : Word) : Word := if c.getLsbD 0 then (c >>> 1) ^^^ Config.poly else c >>> 1

/-- `n` iterations of `bitstep`. -/
def bitsteps : Nat → Word → Word
  | 0, c => c
  | n + 1, c => bitsteps n (bitstep c)

/-- Absorbing one byte: XOR into the low byte, then exactly eight iterations (R63). -/
def bytestep (c : Word) (b : Byte) : Word := bitsteps 8 (c ^^^ zext16 b)

/-- Absorbing a byte sequence, first byte first, from a given register value. -/
def absorb (c : Word) (m : List Byte) : Word := m.foldl bytestep c

/-- The checksum of a byte sequence of any length, the empty one included (R64). -/
def crc16 (m : List Byte) : Word := absorb Config.crcInit m

/-- The two trailer bytes (low, high) of a whole buffer; the two placeholder bytes are not read (R65). A buffer
shorter than 2 bytes is refused (R72, U1). -/
def crcTrailer (buf : List Byte) : Option (Byte × Byte) :=
  if buf.length < 2 then none
  else
    let c := crc16 (buf.take (buf.length - 2))
    some (lo8 c, hi8 c)

/-- Do the last two bytes equal the checksum of all preceding bytes (R66)? Refused below 2 bytes (R72, U1). -/
def crcCheck (buf : List Byte) : Option Bool :=
  match crcTrailer buf with
  | none => none
  | some (lo, hi) => some (buf[buf.length - 2]? == some lo && buf[buf.length - 1]? == some hi)

/-- `T[i]` of the table form, "recomputed from `bytestep`" (R70). -/
def crcTableEntry (i : Byte) : Word := bytestep 0x0000#16 i

/-- The table form of `bytestep` (R70). -/
def bytestepTable (c : Word) (b : Byte) : Word := (c >>> 8) ^^^ crcTableEntry (lo8 c ^^^ b)

/-- One message bit per step, the usual shift-register form (R73). -/
def serialbit (c : Word) (d : Bool) : Word :=
  if c.getLsbD 0 ^^ d then (c >>> 1) ^^^ Config.poly else c >>> 1

/-- A byte fed least significant bit first (R73). -/
def serialbyte (c : Word) (b : Byte) : Word := (List.range 8).foldl (fun c i => serialbit c (b.getLsbD i)) c

end Sys2Proof.Machine
end

