-- ==== Sys2Proof/Machine/Flags.lean ====
section
/-! DEFINITION. `STATUS`: its codes, its assembled value, and the code write of a command that completes normally
(`10_state.md` R15; `60_exceptions.md` R116 to R118). There are no condition codes (R16). -/

namespace Sys2Proof.Machine

/-- OK (R15). -/
def codeOk : BitVec 2 := 0#2
/-- INVALID_ARGUMENT (R15, R117). -/
def codeInvalidArgument : BitVec 2 := 1#2
/-- ILLEGAL_COMMAND (R15, R118). -/
def codeIllegalCommand : BitVec 2 := 2#2

/-- `STATUS_OUT[3:0]`: `CODE` in bits 1:0, `BUSY` bit 2, `EFLAG` bit 3 (R15). -/
def statusWord (s : Block) : BitVec 4 := BitVec.ofBool s.eflag ++ (BitVec.ofBool s.busy ++ s.code)

/-- Normal completion: `STATUS.CODE` <- 0, `EFLAG` unchanged (R116). -/
def completeOk (s : Block) : Block := { s with code := codeOk }

end Sys2Proof.Machine
end

