-- ==== Sys2Proof/Machine/Ops.lean ====
section
/-! DEFINITION. The named operations over the frame buffer and the registers: byte access (`20_memory.md` R30, R34;
`00_scope.md` R9), the prologue and epilogue of the builders (`41_frame_builder.md` R81, R84), and taking an exception
(`60_exceptions.md` R119). There is no return from an exception (R124): the next command proceeds normally. -/

namespace Sys2Proof.Machine

/-- The byte a list of cells holds at an address; an unlisted address reads as 0x00 (R24). -/
def cellGet : Memory → Nat → Byte
  | [], _ => 0x00#8
  | (k, v) :: m, a => if k = a then v else cellGet m a

/-- Store a byte, keeping the canonical form: 0x00 removes the entry. -/
def cellSet : Memory → Nat → Byte → Memory
  | [], a, v => if v = 0x00#8 then [] else [(a, v)]
  | (k, w) :: m, a, v =>
    if a < k then (if v = 0x00#8 then (k, w) :: m else (a, v) :: (k, w) :: m)
    else if a = k then (if v = 0x00#8 then m else (a, v) :: m)
    else (k, w) :: cellSet m a v

/-- `FB[i]` (R9). The address type is the address space: there is no address outside 0 to 7 (R30). -/
def fbRead (m : Memory) (i : Fin 8) : Byte := cellGet m i.val
/-- `FB[i] <- v` (R9). -/
def fbWrite (m : Memory) (i : Fin 8) (v : Byte) : Memory := cellSet m i.val v

/-- `FB[i] <- 0x00 for i = 0..7` (R81, R119). -/
def fbClear : Memory := []

/-- All eight bytes, in index order. -/
def fbBytes (m : Memory) : List Byte := (List.finRange 8).map (fbRead m)

/-- `MemRead(addr, n)`: bytes `FB[addr]` to `FB[addr+n-1]` in index order (R9; `addr + n <= 8` always holds). -/
def memRead (m : Memory) (addr n : Nat) : List Byte := ((fbBytes m).drop addr).take n

/-- `MemWrite(addr, n, v)`: the bytes of `v` to `FB[addr]` and up (R9; they always fit). -/
def memWrite (m : Memory) (addr : Nat) : List Byte → Memory
  | [] => m
  | v :: vs => if h : addr < 8 then memWrite (fbWrite m ⟨addr, h⟩ v) (addr + 1) vs else m

/-- P1 of every builder: the buffer is cleared (R81). -/
def prologue (s : Block) : Block := { s with fb := fbClear }

/-- The field writes of a builder, `FB[0]` and up (lines 2 to 5 of R82, R83, R85; lines 2, 3 of R86). -/
def writeBody (body : List Byte) (s : Block) : Block := { s with fb := memWrite s.fb 0 body }

/-- E1: `CRC <- crc16(MemRead(0, n-2))` (R84). -/
def crcOfBody (n : Nat) (s : Block) : Block := { s with crc := crc16 (memRead s.fb 0 (n - 2)) }

/-- E2, E3: the trailer, low byte first (R84). -/
def storeTrailer (n : Nat) (s : Block) : Block := { s with fb := memWrite s.fb (n - 2) (le16 s.crc) }

/-- E1 to E6, the epilogue of every builder, for a frame of `n` bytes (R84). -/
def epilogue (n : Nat) (rlen : BitVec 18) (s : Block) : Block :=
  completeOk { storeTrailer n (crcOfBody n s) with flen := BitVec.ofNat 4 n, rlen := rlen }

/-- What every builder does once its argument check has passed (R80 (2) to (4)). -/
def buildFrame (n : Nat) (body : List Byte) (rlen : BitVec 18) (s : Block) : Block :=
  epilogue n rlen (writeBody body (prologue s))

/-- TAKING AN EXCEPTION: the state change of a faulting command, and nothing else (R119, R123). -/
def raise (code : BitVec 2) (s : Block) : Block :=
  { s with fb := fbClear, flen := 0#4, rlen := 0#18, code := code, eflag := true }

/-- RESET: every register of the block takes its reset value, whatever it held (`70_reset_and_hazards.md` R135;
`10_state.md` R24). -/
def resetBlock (_s : Block) : Block := Block.reset

/-- A command that ends in this state of the block. -/
def completeWith (s : State) (f : Block → Block) : Host.Outcome State Fault Refusal :=
  .next ⟨f s.toBlock, s.script⟩

end Sys2Proof.Machine
end

