-- ==== Sys2Proof/Machine/ReadRegs.lean ====
section
/-! DEFINITION. Read Registers: RDH, RDI and the illegal form (`41_frame_builder.md` R82, R83, R90). No field is
range-checked (R89). -/

namespace Sys2Proof.Machine

/-- RDH (R82). -/
def execRdh (addr : Byte) (start count : Word) (s : State) : Host.Outcome State Fault Refusal :=
  completeWith s (buildFrame Config.lenReg (regBody addr Config.fcRhr start count) (rlenRead count))

/-- RDI (R83). -/
def execRdi (addr : Byte) (start count : Word) (s : State) : Host.Outcome State Fault Refusal :=
  completeWith s (buildFrame Config.lenReg (regBody addr Config.fcRir start count) (rlenRead count))

/-- RDREG with `fc` outside 3, 4: InvalidArgument, before the buffer is touched by the builder; `addr`, `a` and `b`
play no part (R90; `60_exceptions.md` R117). -/
def execRdregIllegal (_addr _fc : Byte) (_a _b : Word) (s : State) : Host.Outcome State Fault Refusal :=
  completeWith s (raise codeInvalidArgument)

end Sys2Proof.Machine
end

