-- ==== Sys2Proof/Machine/Reserved.lean ====
section
/-! DEFINITION. The reserved values of `op`: they raise IllegalCommand (`30_encoding.md` R54; `60_exceptions.md` R118;
log 7). -/

namespace Sys2Proof.Machine

/-- RESERVED.5 (R118). -/
def execReserved5 (_addr _fc : Byte) (_a _b : Word) (s : State) : Host.Outcome State Fault Refusal :=
  completeWith s (raise codeIllegalCommand)

/-- RESERVED.6 (R118). -/
def execReserved6 (_addr _fc : Byte) (_a _b : Word) (s : State) : Host.Outcome State Fault Refusal :=
  completeWith s (raise codeIllegalCommand)

/-- RESERVED.7 (R118). -/
def execReserved7 (_addr _fc : Byte) (_a _b : Word) (s : State) : Host.Outcome State Fault Refusal :=
  completeWith s (raise codeIllegalCommand)

end Sys2Proof.Machine
end

