-- ==== Sys2Proof/Machine/Stream.lean ====
section
/-! DEFINITION. The streaming commands of the checksum engine: CRC.INIT and CRC.UPD (`40_crc_engine.md` R67, R68). -/

namespace Sys2Proof.Machine

/-- CRC.INIT (R67). -/
def execCrcInit (_addr _fc : Byte) (_a _b : Word) (s : State) : Host.Outcome State Fault Refusal :=
  completeWith s fun b => completeOk { b with crc := Config.crcInit }

/-- CRC.UPD: absorb `b[7:0]` into whatever `CRC` holds (R68). -/
def execCrcUpd (_addr _fc : Byte) (_a : Word) (_bHi byte : Byte) (s : State) : Host.Outcome State Fault Refusal :=
  completeWith s fun b => completeOk { b with crc := bytestep b.crc byte }

end Sys2Proof.Machine
end

