-- ==== Sys2Proof/Machine/UserFn.lean ====
section
/-! DEFINITION. User Function: USR and its two named forms (`41_frame_builder.md` R86, R87). -/

namespace Sys2Proof.Machine

/-- USR: every `fc` is accepted; `a` and `b` are ignored (R86; `30_encoding.md` R55). -/
def execUsr (addr fc : Byte) (_a _b : Word) (s : State) : Host.Outcome State Fault Refusal :=
  completeWith s (buildFrame Config.lenUsr (usrBody Config.fcCal addr fc) rlenUser)

/-- USR.CAL: "byte 0 is 0xF8 whatever `addr` holds" (R87). -/
def execUsrCal (_addr : Byte) (_a _b : Word) (s : State) : Host.Outcome State Fault Refusal :=
  completeWith s (buildFrame Config.lenUsr [Config.calAddr, Config.fcCal] rlenUser)

/-- USR.RST: "the address is not forced, the frame goes to `addr`" (R87). -/
def execUsrRst (addr : Byte) (_a _b : Word) (s : State) : Host.Outcome State Fault Refusal :=
  completeWith s (buildFrame Config.lenUsr [addr, Config.fcRst] rlenUser)

end Sys2Proof.Machine
end

