-- ==== Sys2Proof/Machine/WriteReg.lean ====
section
/-! DEFINITION. Write Single Register: WSR (`41_frame_builder.md` R85). -/

namespace Sys2Proof.Machine

/-- WSR: the function code is always 6, the `fc` field is ignored (R85; `30_encoding.md` R47). -/
def execWsr (addr _fc : Byte) (reg value : Word) (s : State) : Host.Outcome State Fault Refusal :=
  completeWith s (buildFrame Config.lenReg (regBody addr Config.fcWsr reg value) rlenWrite)

end Sys2Proof.Machine
end

