-- ==== Sys2Proof/Machine/Dispatch.lean ====
section
/-! DEFINITION. The meaning of every command at the transaction level (`30_encoding.md` R46, R52): one arm each. -/

namespace Sys2Proof.Machine

/-- One command as one atomic step (`92_eei_decisions.md` D1). `PHASE`, `IDX`, `BIT` and `OPR` are the
refinement's and stay as they are (log 6). -/
def exec (i : Instr) (s : State) : Host.Outcome State Fault Refusal :=
  match i with
  | .rdh addr start count => Sys2Proof.Machine.execRdh addr start count s
  | .rdi addr start count => Sys2Proof.Machine.execRdi addr start count s
  | .rdregIllegal addr fc a b => Sys2Proof.Machine.execRdregIllegal addr fc a b s
  | .wsr addr fc reg value => Sys2Proof.Machine.execWsr addr fc reg value s
  | .usr addr fc a b => Sys2Proof.Machine.execUsr addr fc a b s
  | .usrCal addr a b => Sys2Proof.Machine.execUsrCal addr a b s
  | .usrRst addr a b => Sys2Proof.Machine.execUsrRst addr a b s
  | .crcInit addr fc a b => Sys2Proof.Machine.execCrcInit addr fc a b s
  | .crcUpd addr fc a bHi byte => Sys2Proof.Machine.execCrcUpd addr fc a bHi byte s
  | .reserved5 addr fc a b => Sys2Proof.Machine.execReserved5 addr fc a b s
  | .reserved6 addr fc a b => Sys2Proof.Machine.execReserved6 addr fc a b s
  | .reserved7 addr fc a b => Sys2Proof.Machine.execReserved7 addr fc a b s

end Sys2Proof.Machine
end

