-- ==== Sys2Proof/Machine/Sequencer.lean ====
section
/-! DEFINITION. The bit-serial sequencer: one micro-step per clock (`42_serial_sequencer.md` R100 to R107), and the
table-driven variant (R111). In every rule, state not mentioned is unchanged. -/

namespace Sys2Proof.Machine

/-- ACCEPT: the command word is latched and decoded (R101). -/
def microAccept (w : CmdWord) (s : Block) : Block :=
  let s := { s with opr := w }
  if cmdOp w = 0#3 then
    if cmdFc w = Config.fcRhr ∨ cmdFc w = Config.fcRir then { s with phase := .fill }
    else raise codeInvalidArgument s
  else if cmdOp w = 1#3 ∨ cmdOp w = 2#3 then { s with phase := .fill }
  else if cmdOp w = 3#3 then completeOk { s with crc := Config.crcInit }
  else if cmdOp w = 4#3 then
    { s with crc := s.crc ^^^ zext16 (lo8 (cmdB w)), bit := 0#3, phase := .shift }
  else raise codeIllegalCommand s

/-- FILL: all body bytes are written in one step, after clearing; no valid frame while the checksum is computed (R102). -/
def microFill (s : Block) : Block :=
  { writeBody (fillBody s.opr) (prologue s) with
    flen := 0#4, rlen := 0#18, crc := Config.crcInit, idx := 0#3, phase := .xor }

/-- XOR: the byte at `IDX` into the low byte of the register (R103). -/
def microXor (s : Block) : Block :=
  { s with crc := s.crc ^^^ zext16 (fbRead s.fb s.idx.toFin), bit := 0#3, phase := .shift }

/-- What follows the last step for a body byte: TRAILER after the last byte, else the next byte (R104). -/
def nextByte (s : Block) : Block :=
  if s.idx.toNat = frameLen s.opr - 3 then { s with phase := .trailer }
  else { s with idx := s.idx + 1#3, phase := .xor }

/-- SHIFT: one of the eight iterations (R104). -/
def microShift (s : Block) : Block :=
  let s := { s with crc := bitstep s.crc }
  if s.bit.toNat < 7 then { s with bit := s.bit + 1#3 }
  else if cmdOp s.opr = 4#3 then completeOk { s with phase := .idle }
  else nextByte s

/-- TRAILER: the trailer bytes, the lengths and the code; the command is complete (R105). -/
def microTrailer (s : Block) : Block :=
  completeOk { storeTrailer (frameLen s.opr) s with
    flen := BitVec.ofNat 4 (frameLen s.opr), rlen := fillRlen s.opr, phase := .idle }

/-- One clock: `RST`, then `PHASE`, then (in IDLE) `CMD_VALID` decide which rule applies (R100, R106, R107). -/
def clock (p : Pins) (s : Block) : Block :=
  if p.rst then resetBlock s
  else
    match s.phase with
    | .idle => if p.cmdValid then microAccept p.cmd s else s
    | .fill => microFill s
    | .xor => microXor s
    | .shift => microShift s
    | .trailer => microTrailer s

/-- The input pins when the host does nothing. -/
def Pins.quiet : Pins := ⟨false, false, 0#51⟩

/-- `k` clocks under a stream of input pins. -/
def clocks (pins : Nat → Pins) : Nat → Block → Block
  | 0, s => s
  | k + 1, s => clock (pins k) (clocks pins k s)

/-- ACCEPT in the table-driven variant: CRC.UPD absorbs its byte in this step (R111). -/
def tableAccept (w : CmdWord) (s : Block) : Block :=
  if cmdOp w = 4#3 then completeOk { s with opr := w, crc := bytestepTable s.crc (lo8 (cmdB w)) }
  else microAccept w s

/-- The step that stands for XOR and its eight SHIFT steps in the table-driven variant (R111). -/
def tableXor (s : Block) : Block := nextByte { s with crc := bytestepTable s.crc (fbRead s.fb s.idx.toFin) }

/-- One clock of the table-driven variant (R111). It never enters SHIFT; from there it would go on as R104 says (log 9). -/
def tableClock (p : Pins) (s : Block) : Block :=
  if p.rst then resetBlock s
  else
    match s.phase with
    | .idle => if p.cmdValid then tableAccept p.cmd s else s
    | .fill => microFill s
    | .xor => tableXor s
    | .shift => microShift s
    | .trailer => microTrailer s

/-- `k` clocks of the table-driven variant under a stream of input pins. -/
def tableClocks (pins : Nat → Pins) : Nat → Block → Block
  | 0, s => s
  | k + 1, s => tableClock (pins k) (tableClocks pins k s)

end Sys2Proof.Machine
end

