-- ==== Sys2Proof/Machine/Step.lean ====
section
/-! DEFINITION. The block's step on an input (`10_state.md` R17, R20 (a), R23), and one step of the block beside its host
(`20_memory.md` R39). -/

namespace Sys2Proof.Machine

/-- The command `w` at the transaction level, from a state of the block to the next one; a command that stopped would leave
the state as it is. -/
def commandEffect (w : CmdWord) (b : Block) : Block :=
  match exec (decode w) ⟨b, []⟩ with
  | .next t => t.toBlock
  | .fault _ => b
  | .refused _ => b

/-- The block's step: the input is an argument, "supplied by the host for each command" (R20 (a)).
RESET: priority over everything (R135). `clock p`: one clock of the refinement. `command w`: the whole command as one
atomic step (D1); a busy block does not accept it, and one clock passes (R106). -/
def blockStep : HostAction → Block → Block
  | .reset, b => resetBlock b
  | .clock p, b => clock p b
  | .command w, b => if b.busy then clock ⟨false, true, w⟩ b else commandEffect w b

/-- One step of the block beside its host, which supplies the next input of `script` (log 1).
No action left: one clock with quiet pins, which changes nothing when the block is idle (R100).
`command w` runs the decoded command when the block is idle; while it is busy the host waits (R138) and one clock passes. -/
def step (s : State) : Host.Outcome State Fault Refusal :=
  match s.script with
  | [] => .next ⟨clock .quiet s.toBlock, s.script⟩
  | .reset :: rest => .next ⟨resetBlock s.toBlock, rest⟩
  | .clock p :: rest => .next ⟨clock p s.toBlock, rest⟩
  | .command w :: rest =>
    if s.busy then .next ⟨clock .quiet s.toBlock, s.script⟩ else exec (decode w) { s with script := rest }

/-- `s` with the command word presented as the host's next action, and the block idle so that it is accepted in the very
next step (log 1). Bits that are no word of the 51-bit port cannot be presented (U9): then `s` itself. -/
def State.withFetchWord (s : State) (nbits w : Nat) : State :=
  match portWord (w % 2 ^ nbits) with
  | .ok c => { s with phase := .idle, script := .command c :: s.script }
  | .error _ => s

end Sys2Proof.Machine
end

