-- ==== Sys2Proof/Machine/Asm.lean ====
section
/-! DEFINITION. The assembler (`30_encoding.md` R57) and the pseudo-instructions (R58): lines as data, their command words,
and the text form of a line. None of this is part of the block; it says which word a line stands for. -/

namespace Sys2Proof.Machine

/-- A line of assembler: the nine syntaxes of R57 and the six pseudo-instructions of R58. -/
inductive AsmLine where
  | rdh (addr : Byte) (start count : Word)
  | rdi (addr : Byte) (start count : Word)
  | rdreg (addr fc : Byte) (start count : Word)
  | wsr (addr : Byte) (reg value : Word)
  | usr (addr fc : Byte)
  | usrCal
  | usrRst (addr : Byte)
  | crcInit
  | crcUpd (byte : Byte)
  | poll (cur : Byte)
  | getAlarm (cur : Byte)
  | setAlarm (cur : Byte) (v : Word)
  | getAddr
  | setAddr (cur : Byte) (new : Word)
  | resetEnergy (cur : Byte)
  deriving DecidableEq, Repr

/-- A pseudo-instruction expands to one builder line; every other line is its own expansion (R58). -/
def AsmLine.expand : AsmLine → AsmLine
  | .poll cur => .rdi cur 0#16 10#16
  | .getAlarm cur => .rdh cur Config.regHoldStart 2#16
  | .setAlarm cur v => .wsr cur Config.regThreshold v
  | .getAddr => .rdh Config.calAddr Config.regHoldStart 2#16
  | .setAddr cur new => .wsr cur Config.regAddress new
  | .resetEnergy cur => .usr cur Config.fcRst
  | .rdh addr start count => .rdh addr start count
  | .rdi addr start count => .rdi addr start count
  | .rdreg addr fc start count => .rdreg addr fc start count
  | .wsr addr reg value => .wsr addr reg value
  | .usr addr fc => .usr addr fc
  | .usrCal => .usrCal
  | .usrRst addr => .usrRst addr
  | .crcInit => .crcInit
  | .crcUpd byte => .crcUpd byte

/-- The command word of a line: 0 in ignored fields, and 6 in the `fc` field of WSR (R47, R57). -/
def assemble : AsmLine → CmdWord
  | .rdh addr start count => packCmd 0#3 addr Config.fcRhr start count
  | .rdi addr start count => packCmd 0#3 addr Config.fcRir start count
  | .rdreg addr fc start count => packCmd 0#3 addr fc start count
  | .wsr addr reg value => packCmd 1#3 addr Config.fcWsr reg value
  | .usr addr fc => packCmd 2#3 addr fc 0#16 0#16
  | .usrCal => packCmd 2#3 Config.calAddr Config.fcCal 0#16 0#16
  | .usrRst addr => packCmd 2#3 addr Config.fcRst 0#16 0#16
  | .crcInit => packCmd 3#3 0#8 0#8 0#16 0#16
  | .crcUpd byte => packCmd 4#3 0#8 0#8 0#16 (zext16 byte)
  | .poll cur => packCmd 0#3 cur Config.fcRir 0#16 10#16
  | .getAlarm cur => packCmd 0#3 cur Config.fcRhr Config.regHoldStart 2#16
  | .setAlarm cur v => packCmd 1#3 cur Config.fcWsr Config.regThreshold v
  | .getAddr => packCmd 0#3 Config.calAddr Config.fcRhr Config.regHoldStart 2#16
  | .setAddr cur new => packCmd 1#3 cur Config.fcWsr Config.regAddress new
  | .resetEnergy cur => packCmd 2#3 cur Config.fcRst 0#16 0#16

/-- Why a line of text is no line of assembler. -/
inductive AsmReject where
  /-- The first word is no mnemonic of R57 or R58, or it has the wrong number of operands. -/
  | badLine
  /-- An operand is no decimal or 0x number. -/
  | badNumber
  /-- An operand does not fit its field (R51; U9: refuse). -/
  | outOfRange
  deriving DecidableEq, Repr

/-- The value of a digit in base 10 or 16. -/
def digitVal (base : Nat) (c : Char) : Option Nat :=
  let n := c.toNat
  let v := if 48 ≤ n ∧ n ≤ 57 then some (n - 48)
    else if 65 ≤ n ∧ n ≤ 70 then some (n - 55)
    else if 97 ≤ n ∧ n ≤ 102 then some (n - 87)
    else none
  match v with
  | some d => if d < base then some d else none
  | none => none

/-- Digits, most significant first, after those already read. -/
def digitsVal (base : Nat) : Nat → List Char → Option Nat
  | acc, [] => some acc
  | acc, c :: cs =>
    match digitVal base c with
    | some d => digitsVal base (base * acc + d) cs
    | none => none

/-- A number: decimal, or hexadecimal after `0x` (R57). -/
def parseNumber : List Char → Option Nat
  | [] => none
  | ['0', 'x'] => none
  | '0' :: 'x' :: c :: cs => digitsVal 16 0 (c :: cs)
  | c :: cs => digitsVal 10 0 (c :: cs)

/-- Remove blanks at both ends. -/
def trimBlanks (t : List Char) : List Char :=
  ((t.dropWhile (· == ' ')).reverse.dropWhile (· == ' ')).reverse

/-- The text cut at every comma. -/
def cutCommas : List Char → List (List Char)
  | [] => [[]]
  | c :: cs =>
    match cutCommas cs with
    | p :: ps => if c = ',' then [] :: p :: ps else (c :: p) :: ps
    | [] => [[c]]

/-- The operands after the mnemonic: none, or numbers separated by commas (R57). -/
def parseOperands (t : List Char) : Except AsmReject (List Nat) :=
  match trimBlanks t with
  | [] => .ok []
  | c :: cs =>
    match (cutCommas (c :: cs)).mapM (fun p => parseNumber (trimBlanks p)) with
    | some ns => .ok ns
    | none => .error .badNumber

/-- An operand as a field of `w` bits. -/
def fieldOf (w n : Nat) : Except AsmReject (BitVec w) :=
  if n < 2 ^ w then .ok (BitVec.ofNat w n) else .error .outOfRange

/-- A mnemonic and its operands as a line (R57, R58). -/
def lineOf (mnemonic : List Char) (operands : List Nat) : Except AsmReject AsmLine :=
  match mnemonic, operands with
  | ['R', 'D', 'H'], [x, y, z] => return .rdh (← fieldOf 8 x) (← fieldOf 16 y) (← fieldOf 16 z)
  | ['R', 'D', 'I'], [x, y, z] => return .rdi (← fieldOf 8 x) (← fieldOf 16 y) (← fieldOf 16 z)
  | ['R', 'D', 'R', 'E', 'G'], [x, f, y, z] =>
    return .rdreg (← fieldOf 8 x) (← fieldOf 8 f) (← fieldOf 16 y) (← fieldOf 16 z)
  | ['W', 'S', 'R'], [x, y, z] => return .wsr (← fieldOf 8 x) (← fieldOf 16 y) (← fieldOf 16 z)
  | ['U', 'S', 'R'], [x, f] => return .usr (← fieldOf 8 x) (← fieldOf 8 f)
  | ['U', 'S', 'R', '.', 'C', 'A', 'L'], [] => .ok .usrCal
  | ['U', 'S', 'R', '.', 'R', 'S', 'T'], [x] => return .usrRst (← fieldOf 8 x)
  | ['C', 'R', 'C', '.', 'I', 'N', 'I', 'T'], [] => .ok .crcInit
  | ['C', 'R', 'C', '.', 'U', 'P', 'D'], [x] => return .crcUpd (← fieldOf 8 x)
  | ['P', 'O', 'L', 'L'], [x] => return .poll (← fieldOf 8 x)
  | ['G', 'E', 'T', 'A', 'L', 'A', 'R', 'M'], [x] => return .getAlarm (← fieldOf 8 x)
  | ['S', 'E', 'T', 'A', 'L', 'A', 'R', 'M'], [x, v] => return .setAlarm (← fieldOf 8 x) (← fieldOf 16 v)
  | ['G', 'E', 'T', 'A', 'D', 'D', 'R'], [] => .ok .getAddr
  | ['S', 'E', 'T', 'A', 'D', 'D', 'R'], [x, v] => return .setAddr (← fieldOf 8 x) (← fieldOf 16 v)
  | ['R', 'E', 'S', 'E', 'T', 'E', 'N', 'E', 'R', 'G', 'Y'], [x] => return .resetEnergy (← fieldOf 8 x)
  | _, _ => .error .badLine

/-- One line of text: a comment runs from `;` to the end; a line with nothing else stands for no command (R57; log 10). -/
def parseLine (t : List Char) : Except AsmReject (Option AsmLine) := do
  match trimBlanks (t.takeWhile (· != ';')) with
  | [] => return none
  | c :: cs =>
    let operands ← parseOperands ((c :: cs).dropWhile (· != ' '))
    return some (← lineOf ((c :: cs).takeWhile (· != ' ')) operands)

end Sys2Proof.Machine
end

