-- ==== Sys2Proof/Machine/Ports.lean ====
section
/-! DEFINITION. The output ports: views of state (`10_state.md` R15, R22). While `BUSY` = 1 the four data ports show any
value (`20_memory.md` R40; `93_implementation_defined.md` U5; log 4). Reading a port changes nothing (R35). -/

namespace Sys2Proof.Machine

/-- `FB_OUT[63:0]`: byte `i` at bits `8*i+7 : 8*i` (R22). -/
def fbPort (m : Memory) : BitVec 64 :=
  fbRead m 7 ++ fbRead m 6 ++ fbRead m 5 ++ fbRead m 4 ++ fbRead m 3 ++ fbRead m 2 ++ fbRead m 1 ++ fbRead m 0

/-- What the registers behind the four data ports hold. -/
def registerPorts (s : Block) : OutputPorts := ⟨s.crc, fbPort s.fb, s.flen, s.rlen⟩

/-- The four data ports: the registers when `BUSY` = 0, a free value while `BUSY` = 1 (R22, R40). -/
def outputs (s : Block) : OutputPorts :=
  if s.busy then Config.busyOutputs (registerPorts s) s.idx s.bit else registerPorts s

/-- `CRC_OUT[15:0]`. -/
def crcOut (s : Block) : BitVec 16 := (outputs s).crc
/-- `CRC_LO[7:0]`. -/
def crcLo (s : Block) : Byte := lo8 (crcOut s)
/-- `CRC_HI[7:0]`. -/
def crcHi (s : Block) : Byte := hi8 (crcOut s)
/-- `FB_OUT[63:0]`. -/
def fbOut (s : Block) : BitVec 64 := (outputs s).fb
/-- `FLEN_OUT[3:0]`. -/
def flenOut (s : Block) : BitVec 4 := (outputs s).flen
/-- `RLEN_OUT[17:0]`. -/
def rlenOut (s : Block) : BitVec 18 := (outputs s).rlen
/-- `STATUS_OUT[3:0]`, which a host reads at any time to learn of completion (R15, R121). -/
def statusOut (s : Block) : BitVec 4 := statusWord s
/-- `CMD_READY` = not `BUSY`. -/
def cmdReady (s : Block) : Bool := !s.busy

/-- The transmit sequence: `FB[0], ..., FB[FLEN-1]` as the ports show them, empty when `FLEN` = 0 (R22). -/
def transmit (s : Block) : List Byte :=
  ((List.range 8).map fun i => (fbOut s).extractLsb' (8 * i) 8).take (flenOut s).toNat

end Sys2Proof.Machine
end

