-- ==== Sys2Proof/Safety.lean ====
section
/-! DEFINITION. The terms claims use: the architectural part of a state (`10_state.md` R10), which commands build, stream
or fault, and the invariant that every step keeps (R26). -/

namespace Sys2Proof.Machine

/-- RDH, RDI, WSR, USR and its two names: the commands that build a frame (`41_frame_builder.md` R80). -/
def builds : Instr → Bool
  | .rdh _ _ _ => true
  | .rdi _ _ _ => true
  | .wsr _ _ _ _ => true
  | .usr _ _ _ _ => true
  | .usrCal _ _ _ => true
  | .usrRst _ _ _ => true
  | .rdregIllegal _ _ _ _ => false
  | .crcInit _ _ _ _ => false
  | .crcUpd _ _ _ _ _ => false
  | .reserved5 _ _ _ _ => false
  | .reserved6 _ _ _ _ => false
  | .reserved7 _ _ _ _ => false

/-- CRC.INIT and CRC.UPD: the streaming commands (`40_crc_engine.md` R69). -/
def streams : Instr → Bool
  | .crcInit _ _ _ _ => true
  | .crcUpd _ _ _ _ _ => true
  | .rdh _ _ _ => false
  | .rdi _ _ _ => false
  | .wsr _ _ _ _ => false
  | .usr _ _ _ _ => false
  | .usrCal _ _ _ => false
  | .usrRst _ _ _ => false
  | .rdregIllegal _ _ _ _ => false
  | .reserved5 _ _ _ _ => false
  | .reserved6 _ _ _ _ => false
  | .reserved7 _ _ _ _ => false

/-- The clocks a command takes in the bit-serial refinement (`42_serial_sequencer.md` R110). -/
def serialClocks : Instr → Nat
  | .rdh _ _ _ => 57
  | .rdi _ _ _ => 57
  | .wsr _ _ _ _ => 57
  | .usr _ _ _ _ => 21
  | .usrCal _ _ _ => 21
  | .usrRst _ _ _ => 21
  | .crcUpd _ _ _ _ _ => 9
  | .crcInit _ _ _ _ => 1
  | .rdregIllegal _ _ _ _ => 1
  | .reserved5 _ _ _ _ => 1
  | .reserved6 _ _ _ _ => 1
  | .reserved7 _ _ _ _ => 1

/-- The clocks a command takes in the table-driven variant (`42_serial_sequencer.md` R111). -/
def tableCount : Instr → Nat
  | .rdh _ _ _ => 9
  | .rdi _ _ _ => 9
  | .wsr _ _ _ _ => 9
  | .usr _ _ _ _ => 5
  | .usrCal _ _ _ => 5
  | .usrRst _ _ _ => 5
  | .crcUpd _ _ _ _ _ => 1
  | .crcInit _ _ _ _ => 1
  | .rdregIllegal _ _ _ _ => 1
  | .reserved5 _ _ _ _ => 1
  | .reserved6 _ _ _ _ => 1
  | .reserved7 _ _ _ _ => 1

/-- The architectural state: the six registers of the transaction level (`10_state.md` R10). -/
structure Arch where
  crc   : BitVec 16
  fb    : Memory
  flen  : BitVec 4
  rlen  : BitVec 18
  code  : BitVec 2
  eflag : Bool
  deriving DecidableEq, Repr

/-- The architectural part of a state. -/
def arch (s : Block) : Arch := ⟨s.crc, s.fb, s.flen, s.rlen, s.code, s.eflag⟩

/-- The frame in the buffer is sound (R26 (I-a) to (I-d)): the legal lengths, zeros past the frame, a trailer that
verifies, and the response length that belongs to the frame. -/
structure FrameOk (s : Block) : Prop where
  flen_legal : s.flen = 0#4 ∨ s.flen = 4#4 ∨ s.flen = 8#4
  zero_past_frame : ∀ i : Fin 8, s.flen.toNat ≤ i.val → fbRead s.fb i = 0x00#8
  trailer_verifies : s.flen ≠ 0#4 → crcCheck (memRead s.fb 0 s.flen.toNat) = some true
  rlen_zero_iff : s.rlen = 0#18 ↔ s.flen = 0#4
  rlen_user : s.flen = 4#4 → s.rlen = 4#18
  rlen_write : s.flen = 8#4 → fbRead s.fb 1 = 0x06#8 → s.rlen = 8#18
  rlen_read : s.flen = 8#4 → fbRead s.fb 1 ≠ 0x06#8 →
    s.rlen.toNat = 5 + 2 * (256 * (fbRead s.fb 4).toNat + (fbRead s.fb 5).toNat)

/-- `STATUS` is sound: code 3 is never written (`60_exceptions.md` R120), and a code other than 0 goes with the sticky
flag and no frame (R26 (I-e)). -/
structure StatusOk (s : Block) : Prop where
  code_legal : s.code ≠ 3#2
  fault_marks : s.code ≠ 0#2 → s.flen = 0#4 ∧ s.eflag = true

/-- The latched command is one whose body the sequencer is absorbing: the buffer holds its body and zeros, no frame is
announced, and `IDX` points into the body (`42_serial_sequencer.md` R102, R104). -/
structure BuildOk (s : Block) : Prop where
  latched_builder : builds (decode s.opr) = true
  body_in_buffer : s.fb = memWrite fbClear 0 (fillBody s.opr)
  no_frame : s.flen = 0#4 ∧ s.rlen = 0#18
  idx_in_body : s.idx.toNat + 3 ≤ frameLen s.opr

/-- Where the sequencer stands, phase by phase. IDLE and FILL, and SHIFT of a CRC.UPD, still hold the last frame. While a
body is absorbed, `CRC` is what `crc16` has reached: in XOR after the bytes before `IDX`, in SHIFT `BIT` iterations into
byte `IDX`, in TRAILER after the whole body (`42_serial_sequencer.md` R101 to R105). -/
def SequencerOk (s : Block) : Prop :=
  match s.phase with
  | .idle => FrameOk s
  | .fill => FrameOk s ∧ builds (decode s.opr) = true
  | .xor => BuildOk s ∧ s.crc = crc16 (memRead s.fb 0 s.idx.toNat)
  | .shift =>
    (FrameOk s ∧ cmdOp s.opr = 4#3) ∨
      (BuildOk s ∧ s.crc = bitsteps s.bit.toNat
        (crc16 (memRead s.fb 0 s.idx.toNat) ^^^ zext16 (fbRead s.fb s.idx.toFin)))
  | .trailer => BuildOk s ∧ s.crc = crc16 (memRead s.fb 0 (frameLen s.opr - 2))

/-- The invariant of the machine. In an idle state it is R26 (I-a) to (I-e), and the buffer in canonical form; in the
middle of a command it says how far the sequencer is. -/
structure Inv (s : Block) : Prop where
  memory_canonical : s.fb.wf
  status : StatusOk s
  sequencer : SequencerOk s

end Sys2Proof.Machine
end

