-- ==== Sys2Proof/WellFormed.lean ====
section
/-! DEFINITION. Which terms of `Instr` are commands. Field widths are types (`30_encoding.md` R51); the one check left is
that RDREG.ILLEGAL has an illegal function code (R53). -/

namespace Sys2Proof

/-- The well-formed commands: `op` = 0 with `fc` = 3 or 4 is RDH or RDI and never the illegal form (R52, R53). -/
def WellFormed : Instr → Bool
  | .rdregIllegal _ fc _ _ => fc != Config.fcRhr && fc != Config.fcRir
  | .rdh _ _ _ => true
  | .rdi _ _ _ => true
  | .wsr _ _ _ _ => true
  | .usr _ _ _ _ => true
  | .usrCal _ _ _ => true
  | .usrRst _ _ _ => true
  | .crcInit _ _ _ _ => true
  | .crcUpd _ _ _ _ _ => true
  | .reserved5 _ _ _ _ => true
  | .reserved6 _ _ _ _ => true
  | .reserved7 _ _ _ _ => true

end Sys2Proof
end

