-- ==== Sys2Proof/Certificates/Slice0/Obligations.lean ====
section
/-! DEFINITION. The statements for the provers, and the few words they are said in. Nothing is proved here. -/

open Sys2Proof Sys2Proof.Machine

/-! ## Words used in the statements -/

/-- The five fields of a command word, at the places `30_encoding.md` R45 gives them. -/
def Sys2Proof.Machine.FieldsAre (w : CmdWord) (op : BitVec 3) (addr fc : Byte) (a b : Word) : Prop :=
  w.extractLsb' 48 3 = op ∧ w.extractLsb' 40 8 = addr ∧ w.extractLsb' 32 8 = fc ∧ w.extractLsb' 16 16 = a ∧
    w.extractLsb' 0 16 = b

/-- The command completes: the next state has the body's checksum in `CRC`, the body, the trailer (low byte first) and
zeros in the eight bytes of the buffer, the frame's length in `FLEN`, `rlen` in `RLEN`, code 0, and every other field
as before (of `PHASE`, `IDX`, `BIT` and `OPR` that is log 6, of the script log 1). -/
def Sys2Proof.Machine.BuildsFrame (i : Instr) (s : State) (body : List Byte) (rlen : Nat) : Prop :=
  ∃ (fb' : Memory) (rl : BitVec 18),
    exec i s = .next { s with
      crc := crc16 body, fb := fb', flen := BitVec.ofNat 4 (body.length + 2), rlen := rl, code := 0#2 } ∧
    (List.finRange 8).map (fbRead fb') =
      body ++ [(crc16 body).extractLsb' 0 8, (crc16 body).extractLsb' 8 8] ++ List.replicate (6 - body.length) 0x00#8 ∧
    rl.toNat = rlen

/-- The command completes by fault entry with this code: `60_exceptions.md` R119 and nothing else (of `PHASE`, `IDX`,
`BIT` and `OPR` that is log 6, of the script log 1). -/
def Sys2Proof.Machine.EntersFault (i : Instr) (s : State) (code : BitVec 2) : Prop :=
  ∃ fb' : Memory,
    exec i s = .next { s with fb := fb', flen := 0#4, rlen := 0#18, code := code, eflag := true } ∧
    ∀ j : Fin 8, fbRead fb' j = 0x00#8

/-- The state `10_state.md` R24 gives after reset, value by value. -/
def Sys2Proof.Machine.resetValues : Block where
  crc := 0xFFFF#16
  fb := []
  flen := 0#4
  rlen := 0#18
  code := 0#2
  eflag := false
  phase := .idle
  idx := 0#3
  bit := 0#3
  opr := 0#51

/-- Byte `j` of a buffer with bit `k` flipped. -/
def Sys2Proof.Machine.flipBit (buf : List Byte) (j k : Nat) : List Byte :=
  buf.modify j (fun b => b ^^^ (1#8 <<< k))

/-- Entries 0x00 to 0x1F of the table of `40_crc_engine.md` R70, as printed. -/
def Sys2Proof.Machine.printedTable0 : List Word :=
  [0x0000#16, 0xC0C1#16, 0xC181#16, 0x0140#16, 0xC301#16, 0x03C0#16, 0x0280#16, 0xC241#16,
   0xC601#16, 0x06C0#16, 0x0780#16, 0xC741#16, 0x0500#16, 0xC5C1#16, 0xC481#16, 0x0440#16,
   0xCC01#16, 0x0CC0#16, 0x0D80#16, 0xCD41#16, 0x0F00#16, 0xCFC1#16, 0xCE81#16, 0x0E40#16,
   0x0A00#16, 0xCAC1#16, 0xCB81#16, 0x0B40#16, 0xC901#16, 0x09C0#16, 0x0880#16, 0xC841#16]
/-- Entries 0x20 to 0x3F of the table of `40_crc_engine.md` R70, as printed. -/
def Sys2Proof.Machine.printedTable1 : List Word :=
  [0xD801#16, 0x18C0#16, 0x1980#16, 0xD941#16, 0x1B00#16, 0xDBC1#16, 0xDA81#16, 0x1A40#16,
   0x1E00#16, 0xDEC1#16, 0xDF81#16, 0x1F40#16, 0xDD01#16, 0x1DC0#16, 0x1C80#16, 0xDC41#16,
   0x1400#16, 0xD4C1#16, 0xD581#16, 0x1540#16, 0xD701#16, 0x17C0#16, 0x1680#16, 0xD641#16,
   0xD201#16, 0x12C0#16, 0x1380#16, 0xD341#16, 0x1100#16, 0xD1C1#16, 0xD081#16, 0x1040#16]
/-- Entries 0x40 to 0x5F of the table of `40_crc_engine.md` R70, as printed. -/
def Sys2Proof.Machine.printedTable2 : List Word :=
  [0xF001#16, 0x30C0#16, 0x3180#16, 0xF141#16, 0x3300#16, 0xF3C1#16, 0xF281#16, 0x3240#16,
   0x3600#16, 0xF6C1#16, 0xF781#16, 0x3740#16, 0xF501#16, 0x35C0#16, 0x3480#16, 0xF441#16,
   0x3C00#16, 0xFCC1#16, 0xFD81#16, 0x3D40#16, 0xFF01#16, 0x3FC0#16, 0x3E80#16, 0xFE41#16,
   0xFA01#16, 0x3AC0#16, 0x3B80#16, 0xFB41#16, 0x3900#16, 0xF9C1#16, 0xF881#16, 0x3840#16]
/-- Entries 0x60 to 0x7F of the table of `40_crc_engine.md` R70, as printed. -/
def Sys2Proof.Machine.printedTable3 : List Word :=
  [0x2800#16, 0xE8C1#16, 0xE981#16, 0x2940#16, 0xEB01#16, 0x2BC0#16, 0x2A80#16, 0xEA41#16,
   0xEE01#16, 0x2EC0#16, 0x2F80#16, 0xEF41#16, 0x2D00#16, 0xEDC1#16, 0xEC81#16, 0x2C40#16,
   0xE401#16, 0x24C0#16, 0x2580#16, 0xE541#16, 0x2700#16, 0xE7C1#16, 0xE681#16, 0x2640#16,
   0x2200#16, 0xE2C1#16, 0xE381#16, 0x2340#16, 0xE101#16, 0x21C0#16, 0x2080#16, 0xE041#16]
/-- Entries 0x80 to 0x9F of the table of `40_crc_engine.md` R70, as printed. -/
def Sys2Proof.Machine.printedTable4 : List Word :=
  [0xA001#16, 0x60C0#16, 0x6180#16, 0xA141#16, 0x6300#16, 0xA3C1#16, 0xA281#16, 0x6240#16,
   0x6600#16, 0xA6C1#16, 0xA781#16, 0x6740#16, 0xA501#16, 0x65C0#16, 0x6480#16, 0xA441#16,
   0x6C00#16, 0xACC1#16, 0xAD81#16, 0x6D40#16, 0xAF01#16, 0x6FC0#16, 0x6E80#16, 0xAE41#16,
   0xAA01#16, 0x6AC0#16, 0x6B80#16, 0xAB41#16, 0x6900#16, 0xA9C1#16, 0xA881#16, 0x6840#16]
/-- Entries 0xA0 to 0xBF of the table of `40_crc_engine.md` R70, as printed. -/
def Sys2Proof.Machine.printedTable5 : List Word :=
  [0x7800#16, 0xB8C1#16, 0xB981#16, 0x7940#16, 0xBB01#16, 0x7BC0#16, 0x7A80#16, 0xBA41#16,
   0xBE01#16, 0x7EC0#16, 0x7F80#16, 0xBF41#16, 0x7D00#16, 0xBDC1#16, 0xBC81#16, 0x7C40#16,
   0xB401#16, 0x74C0#16, 0x7580#16, 0xB541#16, 0x7700#16, 0xB7C1#16, 0xB681#16, 0x7640#16,
   0x7200#16, 0xB2C1#16, 0xB381#16, 0x7340#16, 0xB101#16, 0x71C0#16, 0x7080#16, 0xB041#16]
/-- Entries 0xC0 to 0xDF of the table of `40_crc_engine.md` R70, as printed. -/
def Sys2Proof.Machine.printedTable6 : List Word :=
  [0x5000#16, 0x90C1#16, 0x9181#16, 0x5140#16, 0x9301#16, 0x53C0#16, 0x5280#16, 0x9241#16,
   0x9601#16, 0x56C0#16, 0x5780#16, 0x9741#16, 0x5500#16, 0x95C1#16, 0x9481#16, 0x5440#16,
   0x9C01#16, 0x5CC0#16, 0x5D80#16, 0x9D41#16, 0x5F00#16, 0x9FC1#16, 0x9E81#16, 0x5E40#16,
   0x5A00#16, 0x9AC1#16, 0x9B81#16, 0x5B40#16, 0x9901#16, 0x59C0#16, 0x5880#16, 0x9841#16]
/-- Entries 0xE0 to 0xFF of the table of `40_crc_engine.md` R70, as printed. -/
def Sys2Proof.Machine.printedTable7 : List Word :=
  [0x8801#16, 0x48C0#16, 0x4980#16, 0x8941#16, 0x4B00#16, 0x8BC1#16, 0x8A81#16, 0x4A40#16,
   0x4E00#16, 0x8EC1#16, 0x8F81#16, 0x4F40#16, 0x8D01#16, 0x4DC0#16, 0x4C80#16, 0x8C41#16,
   0x4400#16, 0x84C1#16, 0x8581#16, 0x4540#16, 0x8701#16, 0x47C0#16, 0x4680#16, 0x8641#16,
   0x8201#16, 0x42C0#16, 0x4380#16, 0x8341#16, 0x4100#16, 0x81C1#16, 0x8081#16, 0x4040#16]

/-- The table of R70 as printed. -/
def Sys2Proof.Machine.printedTable : List Word :=
  Sys2Proof.Machine.printedTable0 ++ Sys2Proof.Machine.printedTable1 ++ Sys2Proof.Machine.printedTable2 ++ Sys2Proof.Machine.printedTable3 ++ Sys2Proof.Machine.printedTable4 ++ Sys2Proof.Machine.printedTable5 ++ Sys2Proof.Machine.printedTable6 ++ Sys2Proof.Machine.printedTable7

/-! ## Reset -/

/-- `10_state.md` R24: the state after reset. -/
def Obligations.ResetStateValues : Prop :=
  State.reset.crc = 0xFFFF#16 ∧ (∀ i : Fin 8, fbRead State.reset.fb i = 0x00#8) ∧ State.reset.flen = 0#4 ∧
    State.reset.rlen = 0#18 ∧ State.reset.code = 0#2 ∧ State.reset.eflag = false ∧ State.reset.busy = false ∧
    State.reset.phase = .idle ∧ State.reset.idx = 0#3 ∧ State.reset.bit = 0#3 ∧ State.reset.opr = 0#51

/-- `70_reset_and_hazards.md` R135, `42_serial_sequencer.md` R107: reset in any phase, whatever the command port shows, as a
pin and as a host action; and nothing else clears `EFLAG`. That a host's actions stand in `script` is the model's choice,
log 1. -/
def Obligations.ResetTakesPriority : Prop :=
  (∀ (b : Block) (p : Pins), p.rst = true → clock p b = resetValues) ∧
  (∀ (s : State) (rest : List HostAction), s.script = .reset :: rest →
    step s = .next ⟨resetValues, rest⟩) ∧
  (∀ i : Fin 8, fbRead resetValues.fb i = 0x00#8) ∧
  (∀ s t : State, step s = .next t → s.eflag = true → t.eflag = false →
    (∃ rest, s.script = .reset :: rest) ∨ ∃ p rest, s.script = .clock p :: rest ∧ p.rst = true)

/-! ## Encoding -/

/-- `30_encoding.md` R45, R46: where the encoder puts `op` and every operand of every command. -/
def Obligations.EncodedFieldPlaces : Prop :=
  (∀ addr start count, FieldsAre (encode (.rdh addr start count)) 0#3 addr 0x03#8 start count) ∧
  (∀ addr start count, FieldsAre (encode (.rdi addr start count)) 0#3 addr 0x04#8 start count) ∧
  (∀ addr fc a b, FieldsAre (encode (.rdregIllegal addr fc a b)) 0#3 addr fc a b) ∧
  (∀ addr fc reg value, FieldsAre (encode (.wsr addr fc reg value)) 1#3 addr fc reg value) ∧
  (∀ addr fc a b, FieldsAre (encode (.usr addr fc a b)) 2#3 addr fc a b) ∧
  (∀ addr a b, FieldsAre (encode (.usrCal addr a b)) 2#3 addr Config.fcCal a b) ∧
  (∀ addr a b, FieldsAre (encode (.usrRst addr a b)) 2#3 addr Config.fcRst a b) ∧
  (∀ addr fc a b, FieldsAre (encode (.crcInit addr fc a b)) 3#3 addr fc a b) ∧
  (∀ addr fc a bHi byte, FieldsAre (encode (.crcUpd addr fc a bHi byte)) 4#3 addr fc a (bHi ++ byte)) ∧
  (∀ addr fc a b, FieldsAre (encode (.reserved5 addr fc a b)) 5#3 addr fc a b) ∧
  (∀ addr fc a b, FieldsAre (encode (.reserved6 addr fc a b)) 6#3 addr fc a b) ∧
  (∀ addr fc a b, FieldsAre (encode (.reserved7 addr fc a b)) 7#3 addr fc a b)

/-- `30_encoding.md` R52: decoding is total and goes by `op`, then, for `op` = 0 only, by `fc`; USR.CAL and USR.RST are
names for two values of USR. -/
def Obligations.DecodeOrderByOpThenFc : Prop :=
  (∀ (addr : Byte) (a b : Word), decode (encode (.usrCal addr a b)) = .usr addr Config.fcCal a b ∧
    decode (encode (.usrRst addr a b)) = .usr addr Config.fcRst a b) ∧
  ∀ (w : CmdWord) (addr fc : Byte) (a b : Word),
    (FieldsAre w 0#3 addr fc a b → fc = 0x03#8 → decode w = .rdh addr a b) ∧
    (FieldsAre w 0#3 addr fc a b → fc = 0x04#8 → decode w = .rdi addr a b) ∧
    (FieldsAre w 0#3 addr fc a b → fc ≠ 0x03#8 → fc ≠ 0x04#8 → decode w = .rdregIllegal addr fc a b) ∧
    (FieldsAre w 1#3 addr fc a b → decode w = .wsr addr fc a b) ∧
    (FieldsAre w 2#3 addr fc a b → decode w = .usr addr fc a b) ∧
    (FieldsAre w 3#3 addr fc a b → decode w = .crcInit addr fc a b) ∧
    (FieldsAre w 4#3 addr fc a b → decode w = .crcUpd addr fc a (b.extractLsb' 8 8) (b.extractLsb' 0 8)) ∧
    (FieldsAre w 5#3 addr fc a b → decode w = .reserved5 addr fc a b) ∧
    (FieldsAre w 6#3 addr fc a b → decode w = .reserved6 addr fc a b) ∧
    (FieldsAre w 7#3 addr fc a b → decode w = .reserved7 addr fc a b)

/-- Decoding the word of any well-formed command gives the command back; for the two names USR.CAL and USR.RST it gives
the USR they name (`30_encoding.md` R52, `41_frame_builder.md` R87). -/
def Obligations.DecodeOfEncode : Prop :=
  ∀ i : Instr, WellFormed i = true →
    decode (encode i) = i.core ∧
      (i.core = i ∨ (∃ addr a b, i = .usrCal addr a b) ∨ ∃ addr a b, i = .usrRst addr a b)

/-- Every 51-bit word is the word of the command it decodes to: no bit is lost, and what is decoded is well formed and
never one of the two names. -/
def Obligations.EncodeOfDecode : Prop :=
  ∀ w : CmdWord, encode (decode w) = w ∧ WellFormed (decode w) = true ∧ (decode w).core = decode w

/-- A sanity statement: words of `95_test_vectors.md` and the commands they stand for. -/
def Obligations.SampleWordsDecode : Prop :=
  decode 0x0010300010002#51 = .rdh 0x01#8 0x0001#16 2#16 ∧
  decode 0x001040000000A#51 = .rdi 0x01#8 0x0000#16 10#16 ∧
  decode 0x0010500000001#51 = .rdregIllegal 0x01#8 0x05#8 0#16 1#16 ∧
  decode 0x101AA000159D8#51 = .wsr 0x01#8 0xAA#8 0x0001#16 23000#16 ∧
  decode 0x2109912345678#51 = .usr 0x10#8 0x99#8 0x1234#16 0x5678#16 ∧
  decode 0x3FFFFFFFFFFFF#51 = .crcInit 0xFF#8 0xFF#8 0xFFFF#16 0xFFFF#16 ∧
  decode 0x412345678AB01#51 = .crcUpd 0x12#8 0x34#8 0x5678#16 0xAB#8 0x01#8 ∧
  decode 0x5010300000001#51 = .reserved5 0x01#8 0x03#8 0#16 1#16 ∧
  decode 0x7FFFFFFFFFFFF#51 = .reserved7 0xFF#8 0xFF#8 0xFFFF#16 0xFFFF#16

/-- `30_encoding.md` R47: an ignored field changes nothing, and what the assembler writes there. -/
def Obligations.IgnoredFieldsChangeNothing : Prop :=
  (∀ addr fc fc' reg value s, exec (.wsr addr fc reg value) s = exec (.wsr addr fc' reg value) s) ∧
  (∀ addr fc a b a' b' s, exec (.usr addr fc a b) s = exec (.usr addr fc a' b') s) ∧
  (∀ addr fc a b addr' fc' a' b' s, exec (.crcInit addr fc a b) s = exec (.crcInit addr' fc' a' b') s) ∧
  (∀ addr fc a h addr' fc' a' h' byte s,
    exec (.crcUpd addr fc a h byte) s = exec (.crcUpd addr' fc' a' h' byte) s) ∧
  (∀ addr fc a b addr' fc' a' b' s, exec (.reserved5 addr fc a b) s = exec (.reserved5 addr' fc' a' b') s ∧
    exec (.reserved6 addr fc a b) s = exec (.reserved6 addr' fc' a' b') s ∧
    exec (.reserved7 addr fc a b) s = exec (.reserved7 addr' fc' a' b') s) ∧
  (∀ addr fc reg value s, ∃ t, exec (.wsr addr fc reg value) s = .next t ∧ fbRead t.fb 1 = 0x06#8) ∧
  (∀ addr reg value, FieldsAre (assemble (.wsr addr reg value)) 1#3 addr 0x06#8 reg value) ∧
  (∀ addr fc, FieldsAre (assemble (.usr addr fc)) 2#3 addr fc 0#16 0#16) ∧
  FieldsAre (assemble .crcInit) 3#3 0#8 0#8 0#16 0#16 ∧
  (∀ byte, FieldsAre (assemble (.crcUpd byte)) 4#3 0#8 0#8 0#16 (0x00#8 ++ byte))

/-- `30_encoding.md` R57: the command word of every line of assembler. -/
def Obligations.AssemblerWords : Prop :=
  (∀ addr start count, FieldsAre (assemble (.rdh addr start count)) 0#3 addr 0x03#8 start count) ∧
  (∀ addr start count, FieldsAre (assemble (.rdi addr start count)) 0#3 addr 0x04#8 start count) ∧
  (∀ addr fc start count, FieldsAre (assemble (.rdreg addr fc start count)) 0#3 addr fc start count) ∧
  (∀ addr reg value, FieldsAre (assemble (.wsr addr reg value)) 1#3 addr 0x06#8 reg value) ∧
  (∀ addr fc, FieldsAre (assemble (.usr addr fc)) 2#3 addr fc 0#16 0#16) ∧
  FieldsAre (assemble .usrCal) 2#3 0xF8#8 Config.fcCal 0#16 0#16 ∧
  (∀ addr, FieldsAre (assemble (.usrRst addr)) 2#3 addr Config.fcRst 0#16 0#16) ∧
  FieldsAre (assemble .crcInit) 3#3 0#8 0#8 0#16 0#16 ∧
  (∀ byte, FieldsAre (assemble (.crcUpd byte)) 4#3 0#8 0#8 0#16 (0x00#8 ++ byte))

/-- `30_encoding.md` R58: each pseudo-instruction's word is that of its expansion, and running it completes with the
frame and the `RLEN` of the table. What GETALARM and GETADDR read rests on an inference the spec marks as its own: "Three
points in this table are inferences, not statements of the source". -/
def Obligations.PseudoInstructionFrames : Prop :=
  (∀ l : AsmLine, assemble l = assemble l.expand) ∧
  ∀ (cur : Byte) (v new : Word) (s : State),
    BuildsFrame (decode (assemble (.poll cur))) s [cur, 0x04#8, 0x00#8, 0x00#8, 0x00#8, 0x0A#8] 25 ∧
    BuildsFrame (decode (assemble (.getAlarm cur))) s
      [cur, 0x03#8, Config.regHoldStart.extractLsb' 8 8, Config.regHoldStart.extractLsb' 0 8, 0x00#8, 0x02#8] 9 ∧
    BuildsFrame (decode (assemble (.setAlarm cur v))) s
      [cur, 0x06#8, Config.regThreshold.extractLsb' 8 8, Config.regThreshold.extractLsb' 0 8,
        v.extractLsb' 8 8, v.extractLsb' 0 8] 8 ∧
    BuildsFrame (decode (assemble .getAddr)) s
      [0xF8#8, 0x03#8, Config.regHoldStart.extractLsb' 8 8, Config.regHoldStart.extractLsb' 0 8, 0x00#8, 0x02#8] 9 ∧
    BuildsFrame (decode (assemble (.setAddr cur new))) s
      [cur, 0x06#8, Config.regAddress.extractLsb' 8 8, Config.regAddress.extractLsb' 0 8,
        new.extractLsb' 8 8, new.extractLsb' 0 8] 8 ∧
    BuildsFrame (decode (assemble (.resetEnergy cur))) s [cur, Config.fcRst] 4

/-! ## The checksum engine -/

/-- `40_crc_engine.md` R62: each bit of `bitstep`, and the rule's examples. -/
def Obligations.BitstepBitByBit : Prop :=
  (∀ (c : Word) (i : Nat), i < 16 →
    (bitstep c).getLsbD i = (c.getLsbD (i + 1) ^^ (c.getLsbD 0 && (i == 0 || i == 13 || i == 15)))) ∧
  bitstep 0x0000#16 = 0x0000#16 ∧ bitstep 0x0001#16 = 0xA001#16 ∧ bitstep 0x0002#16 = 0x0001#16 ∧
  bitstep 0x8000#16 = 0x4000#16 ∧ bitstep 0xFFFF#16 = 0xDFFE#16 ∧ bitstep 0xFFFE#16 = 0x7FFF#16 ∧
  bitstep 0xA001#16 = 0xF001#16

/-- `40_crc_engine.md` R63: one XOR into the low byte, then exactly eight bit steps; the rule's examples. -/
def Obligations.BytestepIsXorThenEightBitsteps : Prop :=
  (∀ (c : Word) (b : Byte), bytestep c b =
    bitstep (bitstep (bitstep (bitstep (bitstep (bitstep (bitstep (bitstep (c ^^^ (0x00#8 ++ b)))))))))) ∧
  bytestep 0xFFFF#16 0x01#8 = 0x807E#16 ∧ bytestep 0x807E#16 0x04#8 = 0xE301#16 ∧
  bytestep 0x0000#16 0x00#8 = 0x0000#16 ∧ bytestep 0x0000#16 0x01#8 = 0xC0C1#16 ∧
  bytestep 0x0000#16 0x80#8 = 0xA001#16 ∧ bytestep 0xFFFF#16 0x00#8 = 0x40BF#16 ∧
  bytestep 0xFFFF#16 0xFF#8 = 0x00FF#16 ∧ bytestep 0xFFFF#16 0xF8#8 = 0xC2BE#16 ∧
  bytestep 0x00FF#16 0xFF#8 = 0x0000#16 ∧ bytestep 0x1234#16 0x34#8 = 0x0012#16

/-- `40_crc_engine.md` R64: from 0xFFFF, byte by byte, first byte first, nothing after the loop. -/
def Obligations.CrcOfMessageByteByByte : Prop :=
  crc16 [] = 0xFFFF#16 ∧ (∀ (m : List Byte) (b : Byte), crc16 (m ++ [b]) = bytestep (crc16 m) b) ∧
  crc16 [0x01#8, 0x04#8, 0x00#8, 0x00#8, 0x00#8, 0x0A#8] = 0x0D70#16

/-- `40_crc_engine.md` R65, R66, R72: the trailer of a buffer and the verification predicate on every buffer of two bytes
or more, refused below two bytes. -/
def Obligations.TrailerAndCheckOfBuffer : Prop :=
  (∀ (body : List Byte) (x y : Byte),
    crcTrailer (body ++ [x, y]) = some ((crc16 body).extractLsb' 0 8, (crc16 body).extractLsb' 8 8) ∧
    crcCheck (body ++ [x, y]) =
      some (decide (x = (crc16 body).extractLsb' 0 8 ∧ y = (crc16 body).extractLsb' 8 8))) ∧
  (∀ buf : List Byte, buf.length < 2 → crcTrailer buf = none ∧ crcCheck buf = none) ∧
  crcCheck [0x01#8, 0x04#8, 0x00#8, 0x00#8, 0x00#8, 0x0A#8, 0x70#8, 0x0D#8] = some true ∧
  crcCheck [0x01#8, 0x04#8, 0x00#8, 0x00#8, 0x00#8, 0x0B#8, 0x70#8, 0x0D#8] = some false ∧
  crcCheck [0x01#8, 0x04#8, 0x00#8, 0x00#8, 0x00#8, 0x0A#8, 0x0D#8, 0x70#8] = some false

/-- `40_crc_engine.md` R70: the table form computes `bytestep`, and the table recomputed from `bytestep` is the printed one. -/
def Obligations.TableFormEqualsBytestep : Prop :=
  (∀ (c : Word) (b : Byte), bytestep c b = (c >>> 8) ^^^ bytestep 0x0000#16 (c.extractLsb' 0 8 ^^^ b)) ∧
  (List.range 256).map (fun i => bytestep 0x0000#16 (BitVec.ofNat 8 i)) = printedTable

/-- `40_crc_engine.md` R73: one message bit per step, least significant bit first, computes the same register. -/
def Obligations.SerialBitFormEqualsBytestep : Prop :=
  ∀ (c : Word) (b : Byte), bytestep c b =
    serialbit (serialbit (serialbit (serialbit (serialbit (serialbit (serialbit (serialbit c
      (b.getLsbD 0)) (b.getLsbD 1)) (b.getLsbD 2)) (b.getLsbD 3)) (b.getLsbD 4)) (b.getLsbD 5)) (b.getLsbD 6))
      (b.getLsbD 7)

/-- `40_crc_engine.md` R71 (a): linearity over XOR. -/
def Obligations.BitstepAndBytestepLinear : Prop :=
  (∀ x y : Word, bitstep (x ^^^ y) = bitstep x ^^^ bitstep y) ∧
  (∀ (c : Word) (b : Byte), bytestep c b = bytestep (c ^^^ zext16 b) 0x00#8) ∧
  (∀ (c d : Word) (b : Byte), bytestep (c ^^^ d) b = bytestep c b ^^^ bytestep d 0x00#8)

/-- `40_crc_engine.md` R71 (b): distinct register values never merge, and every value is reached. -/
def Obligations.BitstepAndBytestepBijective : Prop :=
  Function.Bijective bitstep ∧ ∀ b : Byte, Function.Bijective fun c => bytestep c b

/-- `40_crc_engine.md` R71 (c): absorbing a message and its own trailer leaves 0x0000, and so a buffer verifies exactly
when absorbing all of it leaves 0x0000. -/
def Obligations.ZeroResidueOfOwnTrailer : Prop :=
  (∀ m : List Byte, crc16 (m ++ [(crc16 m).extractLsb' 0 8, (crc16 m).extractLsb' 8 8]) = 0x0000#16) ∧
  ∀ buf : List Byte, 2 ≤ buf.length → crcCheck buf = some (crc16 buf == 0x0000#16)

/-- `40_crc_engine.md` R71 (d): two bodies of equal length that differ in exactly one bit have different checksums. -/
def Obligations.SingleBitFlipChangesCrc : Prop :=
  ∀ (m : List Byte) (j k : Nat), j < m.length → k < 8 → crc16 (flipBit m j k) ≠ crc16 m

/-! ## The commands -/

/-- `41_frame_builder.md` R82: RDH, with the rule's example. -/
def Obligations.RdhBuildsReadHoldingFrame : Prop :=
  (∀ (addr : Byte) (start count : Word) (s : State), BuildsFrame (.rdh addr start count) s
    [addr, 0x03#8, start.extractLsb' 8 8, start.extractLsb' 0 8, count.extractLsb' 8 8, count.extractLsb' 0 8]
    (5 + 2 * count.toNat)) ∧
  ∀ s : State, ∃ t, exec (.rdh 0x01#8 0x0001#16 2#16) s = .next t ∧ t.crc = 0xCB95#16 ∧
    (List.finRange 8).map (fbRead t.fb) = [0x01#8, 0x03#8, 0x00#8, 0x01#8, 0x00#8, 0x02#8, 0x95#8, 0xCB#8] ∧
    t.flen = 8#4 ∧ t.rlen = 9#18

/-- `41_frame_builder.md` R83: RDI, with the rule's example. -/
def Obligations.RdiBuildsReadInputFrame : Prop :=
  (∀ (addr : Byte) (start count : Word) (s : State), BuildsFrame (.rdi addr start count) s
    [addr, 0x04#8, start.extractLsb' 8 8, start.extractLsb' 0 8, count.extractLsb' 8 8, count.extractLsb' 0 8]
    (5 + 2 * count.toNat)) ∧
  ∀ s : State, ∃ t, exec (.rdi 0x01#8 0x0000#16 10#16) s = .next t ∧ t.crc = 0x0D70#16 ∧
    (List.finRange 8).map (fbRead t.fb) = [0x01#8, 0x04#8, 0x00#8, 0x00#8, 0x00#8, 0x0A#8, 0x70#8, 0x0D#8] ∧
    t.flen = 8#4 ∧ t.rlen = 25#18

/-- `41_frame_builder.md` R85: WSR emits function code 6 whatever the `fc` field holds, with the rule's example. -/
def Obligations.WsrBuildsWriteFrame : Prop :=
  (∀ (addr fc : Byte) (reg value : Word) (s : State), BuildsFrame (.wsr addr fc reg value) s
    [addr, 0x06#8, reg.extractLsb' 8 8, reg.extractLsb' 0 8, value.extractLsb' 8 8, value.extractLsb' 0 8] 8) ∧
  ∀ (fc : Byte) (s : State), ∃ t, exec (.wsr 0x01#8 fc 0x0001#16 23000#16) s = .next t ∧ t.crc = 0x00E2#16 ∧
    (List.finRange 8).map (fbRead t.fb) = [0x01#8, 0x06#8, 0x00#8, 0x01#8, 0x59#8, 0xD8#8, 0xE2#8, 0x00#8] ∧
    t.flen = 8#4 ∧ t.rlen = 8#18

/-- `41_frame_builder.md` R86: USR, for every function code; the address is forced to 0xF8 exactly when the code is FC_CAL.
The example is the rule's, on the body it gives for a code that is not FC_CAL. -/
def Obligations.UsrBuildsUserFrame : Prop :=
  (∀ (addr fc : Byte) (a b : Word) (s : State),
    BuildsFrame (.usr addr fc a b) s [if fc = Config.fcCal then 0xF8#8 else addr, fc] 4) ∧
  (∀ fcCal : Byte, fcCal ≠ 0x99#8 →
    usrBody fcCal 0x10#8 0x99#8 ++ le16 (crc16 (usrBody fcCal 0x10#8 0x99#8)) = [0x10#8, 0x99#8, 0xCC#8, 0x1A#8])

/-- `41_frame_builder.md` R87: the two named forms, and the rule's frames under its suggested parameters. -/
def Obligations.UsrCalAndUsrRstFrames : Prop :=
  (∀ (addr : Byte) (a b : Word) (s : State),
    BuildsFrame (.usrCal addr a b) s [0xF8#8, Config.fcCal] 4 ∧
    BuildsFrame (.usrRst addr a b) s [addr, Config.fcRst] 4 ∧
    exec (.usrCal addr a b) s = exec (.usr addr Config.fcCal a b) s ∧
    exec (.usrRst addr a b) s = exec (.usr addr Config.fcRst a b) s) ∧
  usrBody 0x41#8 0x01#8 0x42#8 ++ le16 (crc16 (usrBody 0x41#8 0x01#8 0x42#8)) = [0x01#8, 0x42#8, 0x80#8, 0x11#8] ∧
  ∀ addr : Byte,
    usrBody 0x41#8 addr 0x41#8 ++ le16 (crc16 (usrBody 0x41#8 addr 0x41#8)) = [0xF8#8, 0x41#8, 0x82#8, 0x40#8]

/-- `41_frame_builder.md` R90, `60_exceptions.md` R117: every word with `op` = 0 and `fc` not 3 or 4 raises InvalidArgument,
whatever its other fields hold, and nothing else raises it. -/
def Obligations.IllegalReadRaisesInvalidArgument : Prop :=
  (∀ (addr fc : Byte) (a b : Word) (s : State), EntersFault (.rdregIllegal addr fc a b) s 1#2) ∧
  (∀ (w : CmdWord) (s : State), w.extractLsb' 48 3 = 0#3 → w.extractLsb' 32 8 ≠ 0x03#8 → w.extractLsb' 32 8 ≠ 0x04#8 →
    EntersFault (decode w) s 1#2) ∧
  ∀ (i : Instr) (s t : State), exec i s = .next t → t.code = 1#2 → ∃ addr fc a b, i = .rdregIllegal addr fc a b

/-- `60_exceptions.md` R118, `30_encoding.md` R54: every word with `op` = 5, 6 or 7 raises IllegalCommand, and nothing else
raises it. -/
def Obligations.ReservedOpRaisesIllegalCommand : Prop :=
  (∀ (addr fc : Byte) (a b : Word) (s : State),
    EntersFault (.reserved5 addr fc a b) s 2#2 ∧ EntersFault (.reserved6 addr fc a b) s 2#2 ∧
    EntersFault (.reserved7 addr fc a b) s 2#2) ∧
  (∀ (w : CmdWord) (s : State), 5 ≤ (w.extractLsb' 48 3).toNat → EntersFault (decode w) s 2#2) ∧
  ∀ (i : Instr) (s t : State), exec i s = .next t → t.code = 2#2 →
    ∃ addr fc a b, i = .reserved5 addr fc a b ∨ i = .reserved6 addr fc a b ∨ i = .reserved7 addr fc a b

/-- `60_exceptions.md` R119: after a fault of an idle block there is no frame to send, and the block is ready. -/
def Obligations.NothingToTransmitAfterFault : Prop :=
  ∀ (i : Instr) (s : State), builds i = false → streams i = false → s.phase = .idle →
    ∃ t, exec i s = .next t ∧ (∀ j : Fin 8, fbRead t.fb j = 0x00#8) ∧ t.flen = 0#4 ∧ t.rlen = 0#18 ∧
      (t.code = 1#2 ∨ t.code = 2#2) ∧ t.eflag = true ∧ t.crc = s.crc ∧ transmit t.toBlock = [] ∧
      cmdReady t.toBlock = true

/-- `40_crc_engine.md` R67: CRC.INIT. That `PHASE`, `IDX`, `BIT` and `OPR` stay is the model's choice, log 6. -/
def Obligations.CrcInitSetsRegister : Prop :=
  ∀ (addr fc : Byte) (a b : Word) (s : State),
    exec (.crcInit addr fc a b) s = .next { s with crc := 0xFFFF#16, code := 0#2 }

/-- `40_crc_engine.md` R68: CRC.UPD absorbs `b[7:0]` into whatever `CRC` holds, with the rule's examples. That `PHASE`,
`IDX`, `BIT` and `OPR` stay is the model's choice, log 6. -/
def Obligations.CrcUpdAbsorbsByte : Prop :=
  (∀ (addr fc : Byte) (a : Word) (bHi byte : Byte) (s : State),
    exec (.crcUpd addr fc a bHi byte) s = .next { s with crc := bytestep s.crc byte, code := 0#2 }) ∧
  ∀ s : State,
    (s.crc = 0xFFFF#16 → ∃ t, exec (decode (assemble (.crcUpd 0x01#8))) s = .next t ∧ t.crc = 0x807E#16) ∧
    (s.crc = 0x807E#16 → ∃ t, exec (decode (assemble (.crcUpd 0x04#8))) s = .next t ∧ t.crc = 0xE301#16)

/-- `10_state.md` R25: which command writes which state, and that a builder's result depends on the command alone and
CRC.UPD's on the command and `CRC` alone. -/
def Obligations.AccessMatrix : Prop :=
  ∀ (i : Instr) (s : State), ∃ t, exec i s = .next t ∧
    (builds i = true → t.flen = (if (encode i).extractLsb' 48 3 = 2#3 then 4#4 else 8#4) ∧
      ((encode i).extractLsb' 48 3 = 1#3 → t.rlen = 8#18) ∧ ((encode i).extractLsb' 48 3 = 2#3 → t.rlen = 4#18) ∧
      t.code = 0#2 ∧ t.eflag = s.eflag ∧
      ∀ s' t', exec i s' = .next t' →
        t'.crc = t.crc ∧ t'.fb = t.fb ∧ t'.flen = t.flen ∧ t'.rlen = t.rlen ∧ t'.code = t.code) ∧
    (streams i = true → ((encode i).extractLsb' 48 3 = 3#3 → t.crc = 0xFFFF#16) ∧ t.fb = s.fb ∧ t.flen = s.flen ∧ t.rlen = s.rlen ∧ t.code = 0#2 ∧ t.eflag = s.eflag ∧
      ∀ s' t', s'.crc = s.crc → exec i s' = .next t' → t'.crc = t.crc) ∧
    (builds i = false → streams i = false → t.crc = s.crc ∧ (∀ j : Fin 8, fbRead t.fb j = 0x00#8) ∧ t.flen = 0#4 ∧
      t.rlen = 0#18 ∧ t.code = (if (encode i).extractLsb' 48 3 = 0#3 then 1#2 else 2#2) ∧ t.eflag = true)

/-- The model's choice, logs 6 and 1: at the transaction level every command leaves the registers of the refinement, and the
host's script, as they are. -/
def Obligations.CommandLeavesSequencerRegisters : Prop :=
  ∀ (i : Instr) (s : State), ∃ t, exec i s = .next t ∧ t.phase = s.phase ∧ t.idx = s.idx ∧ t.bit = s.bit ∧
    t.opr = s.opr ∧ t.script = s.script

/-- `41_frame_builder.md` R88: `RLEN` after a builder, with no wrap for any count. -/
def Obligations.ResponseLengthOfBuilder : Prop :=
  ∀ (addr fc : Byte) (a b : Word) (s : State),
    (∃ t, exec (.rdh addr a b) s = .next t ∧ t.rlen.toNat = 5 + 2 * b.toNat) ∧
    (∃ t, exec (.rdi addr a b) s = .next t ∧ t.rlen.toNat = 5 + 2 * b.toNat) ∧
    (∃ t, exec (.wsr addr fc a b) s = .next t ∧ t.rlen.toNat = 8) ∧
    (∃ t, exec (.usr addr fc a b) s = .next t ∧ t.rlen.toNat = 4)

/-- `41_frame_builder.md` R92: what a builder leaves verifies, and stops verifying when any one bit of it, body or trailer,
is changed. -/
def Obligations.BuiltFrameVerifiesAndOneFlipFails : Prop :=
  ∀ (i : Instr) (s : State), builds i = true → ∃ t, exec i s = .next t ∧
    crcCheck (memRead t.fb 0 t.flen.toNat) = some true ∧
    ∀ j k : Nat, j < t.flen.toNat → k < 8 → crcCheck (flipBit (memRead t.fb 0 t.flen.toNat) j k) = some false

/-- `10_state.md` R11: after a builder, `CRC` holds the checksum of the frame body and equals the trailer as
`{FB[FLEN-1], FB[FLEN-2]}`. -/
def Obligations.CrcHoldsTrailerAfterBuilder : Prop :=
  ∀ (i : Instr) (s : State), builds i = true → ∃ t, exec i s = .next t ∧
    t.crc = crc16 (memRead t.fb 0 (t.flen.toNat - 2)) ∧
    ∀ hi lo : Fin 8, hi.val + 1 = t.flen.toNat → lo.val + 2 = t.flen.toNat → t.crc = fbRead t.fb hi ++ fbRead t.fb lo

/-- `20_memory.md` R36: issuing a builder twice in a row is the same as once; each CRC.UPD absorbs one more byte. -/
def Obligations.BuildersIdempotentUpdNot : Prop :=
  (∀ (i : Instr) (s : State), builds i = true → ∃ t, exec i s = .next t ∧ exec i t = .next t) ∧
  (∀ (addr fc : Byte) (a : Word) (bHi byte : Byte) (s : State), ∃ t u, exec (.crcUpd addr fc a bHi byte) s = .next t ∧
    exec (.crcUpd addr fc a bHi byte) t = .next u ∧ u.crc = bytestep (bytestep s.crc byte) byte) ∧
  ∃ (s t u : State), exec (.crcUpd 0#8 0#8 0#16 0#8 0x01#8) s = .next t ∧
    exec (.crcUpd 0#8 0#8 0#16 0#8 0x01#8) t = .next u ∧ u ≠ t

/-- `60_exceptions.md` R124: a command proceeds alike whatever `STATUS` holds, overwrites `CODE`, and never clears `EFLAG`. -/
def Obligations.CommandProceedsWhateverStatus : Prop :=
  ∀ (i : Instr) (s : State) (c : BitVec 2) (e : Bool), ∃ t u, exec i s = .next t ∧
    exec i { s with code := c, eflag := e } = .next u ∧
    u.crc = t.crc ∧ u.fb = t.fb ∧ u.flen = t.flen ∧ u.rlen = t.rlen ∧ u.code = t.code ∧
    (e = true → u.eflag = true)

/-- `60_exceptions.md` R116: a command that does not fault writes code 0 and leaves `EFLAG`. -/
def Obligations.NormalCompletionWritesCodeZero : Prop :=
  ∀ (i : Instr) (s : State), (builds i = true ∨ streams i = true) →
    ∃ t, exec i s = .next t ∧ t.code = 0#2 ∧ t.eflag = s.eflag

/-! ## The step -/

/-- A step of an idle block whose host presents a command runs the decoded command, the action taken off the script; a
busy block keeps it and passes one clock. The script, and the waiting, are the model's choice, log 1. -/
def Obligations.StepRunsDecodedCommand : Prop :=
  ∀ (s : State) (w : CmdWord) (rest : List HostAction), s.script = .command w :: rest →
    (s.phase = .idle → step s = exec (decode w) { s with script := rest }) ∧
    (s.phase ≠ .idle → step s = .next ⟨clock .quiet s.toBlock, s.script⟩)

/-- A command placed where the step fetches is what the very next step runs, and nothing else of the state is changed. The placing
is the model's choice, log 1. -/
def Obligations.FetchedWordRunsNext : Prop :=
  ∀ (s : State) (w : CmdWord), step (s.withFetchWord 56 w.toNat) = exec (decode w) { s with phase := .idle }

/-- `20_memory.md` R39 (a): the state after a run of commands is the left-to-right composition of their effects. That the
commands stand in `script` is the model's choice, log 1. -/
def Obligations.RunOfCommandsComposes : Prop :=
  ∀ (ws : List CmdWord) (rest : List HostAction) (s : State), s.phase = .idle →
    Sys2Proof.core.run ws.length { s with script := ws.map .command ++ rest } =
      .next ⟨ws.foldl (fun b w => commandEffect w b) s.toBlock, rest⟩

/-- `40_crc_engine.md` R69: CRC.INIT and then one CRC.UPD for each byte of a message leave the message's checksum in `CRC`
and on `CRC_LO`, `CRC_HI`, whatever the ignored fields hold; the frame in the buffer is left alone. That the commands stand
in `script`, and that `PHASE`, `IDX`, `BIT` and `OPR` stay, are the model's choice, logs 1 and 6. -/
def Obligations.StreamedMessageChecksum : Prop :=
  ∀ (s : State) (w : CmdWord) (ws : List CmdWord) (rest : List HostAction), s.phase = .idle →
    w.extractLsb' 48 3 = 3#3 → (∀ x ∈ ws, x.extractLsb' 48 3 = 4#3) →
    ∃ t, Sys2Proof.core.run (ws.length + 1) { s with script := .command w :: (ws.map .command ++ rest) } = .next t ∧
      t = { s with crc := crc16 (ws.map fun x => x.extractLsb' 0 8), code := 0#2, script := rest } ∧
      crcLo t.toBlock = (crc16 (ws.map fun x => x.extractLsb' 0 8)).extractLsb' 0 8 ∧
      crcHi t.toBlock = (crc16 (ws.map fun x => x.extractLsb' 0 8)).extractLsb' 8 8

/-- `42_serial_sequencer.md` R100: in every state exactly one rule applies, so a step always has a next state; and an idle
block without a command stays as it is. That a clock's pins stand in `script` is the model's choice, log 1. -/
def Obligations.StepAlwaysHasNextState : Prop :=
  (∀ s : State, ∃ t, step s = .next t) ∧
  (∀ (b : Block) (p : Pins), b.phase = .idle → p.rst = false → p.cmdValid = false → clock p b = b) ∧
  ∀ (s : State) (p : Pins) (rest : List HostAction), s.script = .clock p :: rest →
    step s = .next ⟨clock p s.toBlock, rest⟩

/-- `10_state.md` R20 (a): the command word is an input of the block's step and no state of it. In a step of the machine the
block's next state is `blockStep` of its own state and of the input the host supplies, whatever else the host will do; and
a command's effect on the block does not depend on what the host will do next. That the host's inputs stand beside the block
in `script`, and that a command waits while the block is busy, are the model's choice, log 1. -/
def Obligations.InputIsNoStateOfTheBlock : Prop :=
  (∀ (b : Block) (x : HostAction) (rest : List HostAction), ∃ t,
    step ⟨b, x :: rest⟩ = .next t ∧ t.toBlock = blockStep x b ∧
    (((∀ w, x ≠ .command w) ∨ b.phase = .idle) → t.script = rest) ∧
    ((∃ w, x = .command w) → b.phase ≠ .idle → t.script = x :: rest)) ∧
  (∀ b : Block, step ⟨b, []⟩ = .next ⟨clock .quiet b, []⟩) ∧
  ∀ (i : Instr) (b : Block), ∃ c : Block, ∀ script : List HostAction,
    exec i ⟨b, script⟩ = .next ⟨c, script⟩

/-! ## The invariant -/

/-- The invariant holds in the state after reset. -/
def Obligations.InvariantAtReset : Prop := Inv State.reset.toBlock

/-- Every step keeps the invariant: R26 (I-a) to (I-e) in every idle state, the canonical buffer, and the sequencer's place
in a command (`10_state.md` R26; `42_serial_sequencer.md` R101 to R105). -/
def Obligations.StepKeepsInvariant : Prop := 
  ∀ s t : State, Inv s.toBlock → step s = .next t → Inv t.toBlock

/-- Every command keeps the invariant of an idle state, and completes. -/
def Obligations.CommandKeepsFrameInvariant : Prop :=
  ∀ (i : Instr) (s : State), s.phase = .idle → Inv s.toBlock →
    ∃ t, exec i s = .next t ∧ t.phase = .idle ∧ Inv t.toBlock

/-! ## The bit-serial sequencer -/

/-- `42_serial_sequencer.md` R101: ACCEPT, for every kind of command. -/
def Obligations.AcceptMicroStep : Prop :=
  ∀ (s : Block) (w : CmdWord) (addr fc : Byte) (a b : Word) (p : Pins),
    s.phase = .idle → p.rst = false → p.cmdValid = true → p.cmd = w →
    (FieldsAre w 0#3 addr fc a b → fc ≠ 0x03#8 → fc ≠ 0x04#8 → ∃ fb' : Memory, (∀ j : Fin 8, fbRead fb' j = 0x00#8) ∧
      clock p s = { s with opr := w, fb := fb', flen := 0#4, rlen := 0#18, code := 1#2, eflag := true }) ∧
    ((FieldsAre w 5#3 addr fc a b ∨ FieldsAre w 6#3 addr fc a b ∨ FieldsAre w 7#3 addr fc a b) →
      ∃ fb' : Memory, (∀ j : Fin 8, fbRead fb' j = 0x00#8) ∧
      clock p s = { s with opr := w, fb := fb', flen := 0#4, rlen := 0#18, code := 2#2, eflag := true }) ∧
    (FieldsAre w 3#3 addr fc a b → clock p s = { s with opr := w, crc := 0xFFFF#16, code := 0#2 }) ∧
    (FieldsAre w 4#3 addr fc a b → clock p s = { s with
      opr := w, crc := s.crc ^^^ (0x00#8 ++ b.extractLsb' 0 8), bit := 0#3, phase := .shift }) ∧
    (FieldsAre w 0#3 addr fc a b → (fc = 0x03#8 ∨ fc = 0x04#8) → clock p s = { s with opr := w, phase := .fill }) ∧
    ((FieldsAre w 1#3 addr fc a b ∨ FieldsAre w 2#3 addr fc a b) → clock p s = { s with opr := w, phase := .fill })

/-- `42_serial_sequencer.md` R102: FILL writes the whole body after clearing, and announces no frame. -/
def Obligations.FillMicroStep : Prop :=
  ∀ (s : Block) (addr fc : Byte) (a b : Word) (p : Pins), s.phase = .fill → p.rst = false →
    ∃ fb' : Memory,
      clock p s = { s with
        fb := fb', flen := 0#4, rlen := 0#18, crc := 0xFFFF#16, idx := 0#3, phase := .xor } ∧
      (FieldsAre s.opr 0#3 addr fc a b → (List.finRange 8).map (fbRead fb') =
        [addr, fc, a.extractLsb' 8 8, a.extractLsb' 0 8, b.extractLsb' 8 8, b.extractLsb' 0 8, 0x00#8, 0x00#8]) ∧
      (FieldsAre s.opr 1#3 addr fc a b → (List.finRange 8).map (fbRead fb') =
        [addr, 0x06#8, a.extractLsb' 8 8, a.extractLsb' 0 8, b.extractLsb' 8 8, b.extractLsb' 0 8, 0x00#8, 0x00#8]) ∧
      (FieldsAre s.opr 2#3 addr fc a b → (List.finRange 8).map (fbRead fb') =
        [if fc = Config.fcCal then 0xF8#8 else addr, fc, 0x00#8, 0x00#8, 0x00#8, 0x00#8, 0x00#8, 0x00#8])

/-- `42_serial_sequencer.md` R103, R104: XOR and SHIFT, with the three ways on from the eighth step of a byte. -/
def Obligations.XorAndShiftMicroSteps : Prop :=
  ∀ (s : Block) (p : Pins), p.rst = false →
    (s.phase = .xor → clock p s = { s with
      crc := s.crc ^^^ (0x00#8 ++ fbRead s.fb s.idx.toFin), bit := 0#3, phase := .shift }) ∧
    (s.phase = .shift → s.bit.toNat < 7 → clock p s = { s with crc := bitstep s.crc, bit := s.bit + 1#3 }) ∧
    (s.phase = .shift → s.bit = 7#3 → s.opr.extractLsb' 48 3 = 4#3 →
      clock p s = { s with crc := bitstep s.crc, code := 0#2, phase := .idle }) ∧
    (∀ n : Nat, (s.opr.extractLsb' 48 3 = 2#3 ∧ n = 4) ∨
        ((s.opr.extractLsb' 48 3 = 0#3 ∨ s.opr.extractLsb' 48 3 = 1#3) ∧ n = 8) →
      (s.phase = .shift → s.bit = 7#3 → s.idx.toNat = n - 3 →
        clock p s = { s with crc := bitstep s.crc, phase := .trailer }) ∧
      (s.phase = .shift → s.bit = 7#3 → s.idx.toNat ≠ n - 3 →
        clock p s = { s with crc := bitstep s.crc, idx := s.idx + 1#3, phase := .xor }))

/-- `42_serial_sequencer.md` R105: TRAILER writes the two trailer bytes and leaves every other byte of the buffer. -/
def Obligations.TrailerMicroStep : Prop :=
  ∀ (s : Block) (p : Pins) (n : Nat) (rl : Nat), s.phase = .trailer → p.rst = false → s.fb.wf →
    ((s.opr.extractLsb' 48 3 = 0#3 ∧ n = 8 ∧ rl = 5 + 2 * (s.opr.extractLsb' 0 16).toNat) ∨
      (s.opr.extractLsb' 48 3 = 1#3 ∧ n = 8 ∧ rl = 8) ∨ (s.opr.extractLsb' 48 3 = 2#3 ∧ n = 4 ∧ rl = 4)) →
    ∃ (fb' : Memory) (r : BitVec 18),
      clock p s = { s with fb := fb', flen := BitVec.ofNat 4 n, rlen := r, code := 0#2, phase := .idle } ∧
      r.toNat = rl ∧
      ∀ j : Fin 8, fbRead fb' j =
        if j.val = n - 2 then s.crc.extractLsb' 0 8
        else if j.val = n - 1 then s.crc.extractLsb' 8 8
        else fbRead s.fb j

/-- `42_serial_sequencer.md` R106: while the block is busy nothing on the command port matters. -/
def Obligations.BusyBlockIgnoresCommandPort : Prop :=
  (∀ (s : Block) (p q : Pins), s.phase ≠ .idle → p.rst = q.rst → clock p s = clock q s) ∧
  ∀ (s : Block) (p : Pins), s.phase = .idle → p.rst = false → p.cmdValid = true → (clock p s).opr = p.cmd

/-- `42_serial_sequencer.md` R108: the table of phase transitions, and that every command is back in IDLE in a bounded
number of steps. -/
def Obligations.PhaseTransitionTable : Prop :=
  (∀ (s : Block) (p : Pins), p.rst = true → (clock p s).phase = .idle) ∧
  (∀ (s : Block) (p : Pins), p.rst = false →
    (s.phase = .idle → p.cmdValid = false → (clock p s).phase = .idle) ∧
    (s.phase = .idle → p.cmdValid = true →
      (clock p s).phase =
        if builds (decode p.cmd) then .fill
        else if p.cmd.extractLsb' 48 3 = 4#3 then .shift
        else .idle) ∧
    (s.phase = .fill → (clock p s).phase = .xor) ∧
    (s.phase = .xor → (clock p s).phase = .shift) ∧
    (s.phase = .shift → s.bit.toNat < 7 → (clock p s).phase = .shift) ∧
    (s.phase = .shift → s.bit = 7#3 → s.opr.extractLsb' 48 3 = 4#3 → (clock p s).phase = .idle) ∧
    (s.phase = .shift → s.bit = 7#3 → s.opr.extractLsb' 48 3 ≠ 4#3 → s.idx.toNat < frameLen s.opr - 3 →
      (clock p s).phase = .xor) ∧
    (s.phase = .shift → s.bit = 7#3 → s.opr.extractLsb' 48 3 ≠ 4#3 → s.idx.toNat = frameLen s.opr - 3 →
      (clock p s).phase = .trailer) ∧
    (s.phase = .trailer → (clock p s).phase = .idle)) ∧
  ∀ (s : Block) (pins : Nat → Pins), s.phase = .idle → (∀ k, (pins k).rst = false) →
    ∃ k, 0 < k ∧ k ≤ 57 ∧ (clocks pins k s).phase = .idle

/-- `42_serial_sequencer.md` R109: from an idle state, with a command accepted in the first clock and no reset, the
micro-steps come back to IDLE, and the first time they do the architectural state is the one the transaction-level rule
gives. The command port may show anything after the first clock. -/
def Obligations.MicroStepsRefineTransaction : Prop :=
  ∀ (s : Block) (w : CmdWord) (pins : Nat → Pins), s.phase = .idle → pins 0 = ⟨false, true, w⟩ →
    (∀ k, (pins k).rst = false) →
    ∃ k, 0 < k ∧ (∀ j, 0 < j → j < k → (clocks pins j s).phase ≠ .idle) ∧ (clocks pins k s).phase = .idle ∧
      arch (clocks pins k s) = arch (commandEffect w s)

/-- `42_serial_sequencer.md` R110: the steps from acceptance until PHASE is IDLE again. Timing of the refinement only. -/
def Obligations.SerialStepCounts : Prop :=
  ∀ (s : Block) (w : CmdWord) (pins : Nat → Pins), s.phase = .idle → pins 0 = ⟨false, true, w⟩ →
    (∀ k, (pins k).rst = false) →
    (∀ j, 0 < j → j < serialClocks (decode w) → (clocks pins j s).phase ≠ .idle) ∧
    (clocks pins (serialClocks (decode w)) s).phase = .idle

/-- `42_serial_sequencer.md` R111: the table-driven variant reaches the same architectural state, in its own counts. -/
def Obligations.TableVariantRefinesTransaction : Prop :=
  ∀ (s : Block) (w : CmdWord) (pins : Nat → Pins), s.phase = .idle → pins 0 = ⟨false, true, w⟩ →
    (∀ k, (pins k).rst = false) →
    (∀ j, 0 < j → j < tableCount (decode w) → (tableClocks pins j s).phase ≠ .idle) ∧
    (tableClocks pins (tableCount (decode w)) s).phase = .idle ∧
    arch (tableClocks pins (tableCount (decode w)) s) = arch (commandEffect w s)

/-! ## The ports -/

/-- `10_state.md` R22: the output ports of an idle block are views of its state, and the transmit sequence is the frame. -/
def Obligations.OutputPortsOfIdleBlock : Prop :=
  ∀ s : Block, s.phase = .idle →
    crcOut s = s.crc ∧ crcLo s = s.crc.extractLsb' 0 8 ∧ crcHi s = s.crc.extractLsb' 8 8 ∧
    (∀ i : Fin 8, (fbOut s).extractLsb' (8 * i.val) 8 = fbRead s.fb i) ∧ flenOut s = s.flen ∧ rlenOut s = s.rlen ∧
    statusOut s = BitVec.ofBool s.eflag ++ (0#1 ++ s.code) ∧ cmdReady s = true ∧ transmit s = memRead s.fb 0 s.flen.toNat

/-- `10_state.md` R15, R22: the fields of `STATUS_OUT`; `BUSY` is `PHASE != IDLE` and the opposite of `CMD_READY`. What the
outputs show while `BUSY` = 1 "is not specified" (`20_memory.md` R40): that `STATUS_OUT` and `CMD_READY` stay defined then is
the model's choice, log 4. -/
def Obligations.StatusPortFields : Prop :=
  ∀ s : Block, (statusOut s).extractLsb' 0 2 = s.code ∧ (statusOut s).getLsbD 2 = decide (s.phase ≠ .idle) ∧
    (statusOut s).getLsbD 3 = s.eflag ∧ cmdReady s = !(statusOut s).getLsbD 2
end

