-- ==== Sys2Proof/Laws/Encoding.lean ====
section
/-! SUPPORT. The fields of a packed command word (`30_encoding.md` R45), and the two different vendor codes (R6). -/

namespace Sys2Proof

/-- Each bit of a packed word, by the field it lies in. -/
theorem getLsbD_packCmd (op : BitVec 3) (addr fc : Byte) (a b : Word) (i : Nat) :
    (packCmd op addr fc a b).getLsbD i =
      if i < 16 then b.getLsbD i
      else if i < 32 then a.getLsbD (i - 16)
      else if i < 40 then fc.getLsbD (i - 32)
      else if i < 48 then addr.getLsbD (i - 40)
      else op.getLsbD (i - 48) := by
  simp only [packCmd, BitVec.getLsbD_append]
  repeat' split
  all_goals first | rfl | omega

@[simp] theorem cmdOp_packCmd (op : BitVec 3) (addr fc : Byte) (a b : Word) :
    cmdOp (packCmd op addr fc a b) = op := by
  ext i hi
  rw [cmdOp, BitVec.getElem_extractLsb', getLsbD_packCmd, ← BitVec.getLsbD_eq_getElem]
  repeat' split
  all_goals first | omega | (congr 1; omega)

@[simp] theorem cmdAddr_packCmd (op : BitVec 3) (addr fc : Byte) (a b : Word) :
    cmdAddr (packCmd op addr fc a b) = addr := by
  ext i hi
  rw [cmdAddr, BitVec.getElem_extractLsb', getLsbD_packCmd, ← BitVec.getLsbD_eq_getElem]
  repeat' split
  all_goals first | omega | (congr 1; omega)

@[simp] theorem cmdFc_packCmd (op : BitVec 3) (addr fc : Byte) (a b : Word) :
    cmdFc (packCmd op addr fc a b) = fc := by
  ext i hi
  rw [cmdFc, BitVec.getElem_extractLsb', getLsbD_packCmd, ← BitVec.getLsbD_eq_getElem]
  repeat' split
  all_goals first | omega | (congr 1; omega)

@[simp] theorem cmdA_packCmd (op : BitVec 3) (addr fc : Byte) (a b : Word) :
    cmdA (packCmd op addr fc a b) = a := by
  ext i hi
  rw [cmdA, BitVec.getElem_extractLsb', getLsbD_packCmd, ← BitVec.getLsbD_eq_getElem]
  repeat' split
  all_goals first | omega | (congr 1; omega)

@[simp] theorem cmdB_packCmd (op : BitVec 3) (addr fc : Byte) (a b : Word) :
    cmdB (packCmd op addr fc a b) = b := by
  ext i hi
  rw [cmdB, BitVec.getElem_extractLsb', getLsbD_packCmd, ← BitVec.getLsbD_eq_getElem]
  repeat' split
  all_goals first | omega | (congr 1; omega)

/-- A word is packed from its own fields: the five fields of R45 are all of the word. -/
theorem packCmd_fields (w : CmdWord) : packCmd (cmdOp w) (cmdAddr w) (cmdFc w) (cmdA w) (cmdB w) = w := by
  ext i hi
  rw [← BitVec.getLsbD_eq_getElem, getLsbD_packCmd, ← BitVec.getLsbD_eq_getElem]
  simp only [cmdOp, cmdAddr, cmdFc, cmdA, cmdB, BitVec.getLsbD_extractLsb']
  repeat' split
  all_goals (rw [decide_eq_true (by omega), Bool.true_and]; congr 1; omega)

/-- The spec's one constraint on the parameters, FC_CAL != FC_RST (R6). -/
theorem Config.fcRst_ne_fcCal : Config.fcRst ≠ Config.fcCal := by
  intro h
  have := congrArg BitVec.toNat h
  simp only [Config.fcRst, BitVec.toNat_add, BitVec.toNat_ofNat] at this
  have := Config.fcCal.isLt
  have := Config.fcRstGap.isLt
  omega

/-- Every pair of two different codes is one the parameters can have, so coding the constraint loses none. -/
theorem Config.gap_exists (cal rst : Byte) (h : rst ≠ cal) :
    ∃ gap : Fin 255, rst = cal + 1#8 + BitVec.ofNat 8 gap.val := by
  have h' : rst.toNat ≠ cal.toNat := fun e => h (BitVec.eq_of_toNat_eq e)
  have := rst.isLt
  have := cal.isLt
  refine ⟨⟨(rst.toNat + 255 - cal.toNat) % 256, by omega⟩, BitVec.eq_of_toNat_eq ?_⟩
  simp only [BitVec.toNat_add, BitVec.toNat_ofNat]
  omega

end Sys2Proof
end

