-- ==== Sys2Proof/Laws/Memory.lean ====
section
/-! SUPPORT. The laws of the frame buffer: a read after a write, every other byte left alone, the canonical form kept by
every operation, and equal contents are equal data. -/

namespace Sys2Proof.Machine

theorem cellGet_cellSet (m : Memory) (a b : Nat) (v : Byte)
    (h : m.Pairwise (fun c d => c.1 < d.1)) :
    cellGet (cellSet m a v) b = if a = b then v else cellGet m b := by
  induction m with
  | nil => simp only [cellSet]; split <;> simp_all [cellGet]
  | cons c m ih =>
    obtain ⟨k, w⟩ := c
    obtain ⟨hk, hm⟩ := List.pairwise_cons.1 h
    have hget : ∀ x, x ≤ k → cellGet m x = 0x00#8 := by
      clear ih h
      intro x hx
      induction m with
      | nil => rfl
      | cons d m ih' =>
        have hd := hk d (by simp)
        simp only [cellGet]
        rw [if_neg (by simp at hd; omega)]
        exact ih' (fun e he => hk e (by simp [he])) (List.pairwise_cons.1 hm).2
    simp only [cellSet]
    split
    · next hlt =>
      split
      · next hv =>
        by_cases hab : a = b
        · subst hab hv
          rw [if_pos rfl, cellGet, if_neg (by omega), hget a (by omega)]
        · rw [if_neg hab]
      · by_cases hab : a = b <;> simp [cellGet, hab]
    · next hge =>
      split
      · next hk' =>
        subst hk'
        split
        · next hv =>
          by_cases hab : a = b
          · subst hab; rw [if_pos rfl, hget a (Nat.le_refl a), hv]
          · rw [if_neg hab, cellGet, if_neg hab]
        · by_cases hab : a = b <;> simp [cellGet, hab]
      · next hne =>
        simp only [cellGet, ih hm]
        by_cases hkb : k = b
        · subst hkb; simp [hne]
        · simp [hkb]

theorem mem_cellSet (m : Memory) (a : Nat) (v : Byte) (c : Host.Cell) (h : c ∈ cellSet m a v) :
    c ∈ m ∨ (c = (a, v) ∧ v ≠ 0x00#8) := by
  induction m with
  | nil => simp only [cellSet] at h; split at h <;> simp_all
  | cons d m ih =>
    obtain ⟨k, w⟩ := d
    simp only [cellSet] at h
    repeat' split at h
    all_goals simp only [List.mem_cons] at h ⊢
    · tauto
    · tauto
    · tauto
    · tauto
    · rcases h with h | h
      · tauto
      · rcases ih h with h | h <;> tauto

/-- A store keeps the canonical form. -/
theorem cellSet_wf (m : Memory) (a : Nat) (v : Byte) (ha : a < 8) (h : m.wf) : Memory.wf (cellSet m a v) := by
  refine ⟨?_, fun c hc => ?_⟩
  · have h1 := h.1
    clear h
    induction m with
    | nil => simp only [cellSet]; split <;> simp
    | cons d m ih =>
      obtain ⟨k, w⟩ := d
      obtain ⟨hk, hm⟩ := List.pairwise_cons.1 h1
      simp only [cellSet]
      split
      · next hlt =>
        split
        · exact h1
        · refine List.pairwise_cons.2 ⟨fun e he => ?_, h1⟩
          rcases List.mem_cons.1 he with rfl | he
          · exact hlt
          · exact Nat.lt_trans hlt (hk e he)
      · split
        · next hk' =>
          subst hk'
          split
          · exact hm
          · exact List.pairwise_cons.2 ⟨hk, hm⟩
        · next hne =>
          refine List.pairwise_cons.2 ⟨fun e he => ?_, ih hm⟩
          rcases mem_cellSet m a v e he with he | ⟨rfl, -⟩
          · exact hk e he
          · show k < a; omega
  · rcases mem_cellSet m a v c hc with hc | ⟨rfl, hv⟩
    · exact h.2 c hc
    · exact ⟨ha, hv⟩

theorem fbClear_wf : Memory.wf fbClear := by simp [fbClear, Memory.wf]

theorem fbWrite_wf (m : Memory) (i : Fin 8) (v : Byte) (h : m.wf) : Memory.wf (fbWrite m i v) :=
  cellSet_wf m i.val v i.isLt h

theorem memWrite_wf (vs : List Byte) (m : Memory) (a : Nat) (h : m.wf) : Memory.wf (memWrite m a vs) := by
  induction vs generalizing m a with
  | nil => exact h
  | cons v vs ih =>
    simp only [memWrite]
    split
    · exact ih _ _ (fbWrite_wf m _ v h)
    · exact h

@[simp] theorem fbRead_fbClear (i : Fin 8) : fbRead fbClear i = 0x00#8 := rfl

/-- A read after a write: the byte written, or the byte that was there. -/
theorem fbRead_fbWrite (m : Memory) (i j : Fin 8) (v : Byte) (h : m.wf) :
    fbRead (fbWrite m i v) j = if i = j then v else fbRead m j := by
  rw [fbRead, fbWrite, cellGet_cellSet m i.val j.val v h.1]
  by_cases hij : i = j
  · simp [hij]
  · rw [if_neg hij, if_neg (fun e => hij (Fin.ext e)), fbRead]

/-- A read after a write of a sequence that fits. -/
theorem fbRead_memWrite (vs : List Byte) (m : Memory) (a : Nat) (j : Fin 8) (h : m.wf) (hfit : a + vs.length ≤ 8) :
    fbRead (memWrite m a vs) j = if a ≤ j.val then (vs[j.val - a]?).getD (fbRead m j) else fbRead m j := by
  induction vs generalizing m a with
  | nil => simp [memWrite]
  | cons v vs ih =>
    simp only [List.length_cons] at hfit
    have ha : a < 8 := by omega
    rw [memWrite, dif_pos ha, ih _ (a + 1) (fbWrite_wf m _ v h) (by omega), fbRead_fbWrite m _ j v h]
    by_cases h1 : a = j.val
    · subst h1
      rw [if_neg (by omega), if_pos (by ext; rfl), if_pos (Nat.le_refl _)]
      simp
    · have hne : ¬ (⟨a, ha⟩ : Fin 8) = j := fun e => h1 (congrArg Fin.val e)
      rw [if_neg hne]
      by_cases h2 : a ≤ j.val
      · have h3 : j.val - a = (j.val - (a + 1)) + 1 := by omega
        rw [if_pos (by omega), if_pos h2, h3, List.getElem?_cons_succ]
      · rw [if_neg (by omega), if_neg h2]

@[simp] theorem length_fbBytes (m : Memory) : (fbBytes m).length = 8 := by simp [fbBytes]

theorem getElem_fbBytes (m : Memory) (i : Nat) (h : i < 8) :
    (fbBytes m)[i]'(by simpa using h) = fbRead m ⟨i, h⟩ := by simp [fbBytes]

theorem getElem?_fbBytes (m : Memory) (i : Nat) (h : i < 8) : (fbBytes m)[i]? = some (fbRead m ⟨i, h⟩) := by
  rw [List.getElem?_eq_getElem (by simpa using h), getElem_fbBytes m i h]

theorem length_memRead (m : Memory) (a n : Nat) (h : a + n ≤ 8) : (memRead m a n).length = n := by
  simp [memRead]; omega

theorem getElem?_memRead (m : Memory) (a n i : Nat) (hi : i < n) (h : a + n ≤ 8) :
    (memRead m a n)[i]? = some (fbRead m ⟨a + i, by omega⟩) := by
  rw [memRead, List.getElem?_take_of_lt hi, List.getElem?_drop, getElem?_fbBytes]

/-- An address below every listed one reads as 0x00. -/
theorem cellGet_below (m : Memory) (a : Nat) (h : ∀ c ∈ m, a < c.1) : cellGet m a = 0x00#8 := by
  induction m with
  | nil => rfl
  | cons c m ih =>
    have hc := h c (by simp)
    rw [cellGet, if_neg (by omega)]
    exact ih fun d hd => h d (by simp [hd])

/-- An address above every listed one reads as 0x00. -/
theorem cellGet_above (m : Memory) (a : Nat) (h : ∀ c ∈ m, c.1 < a) : cellGet m a = 0x00#8 := by
  induction m with
  | nil => rfl
  | cons c m ih =>
    have hc := h c (by simp)
    rw [cellGet, if_neg (by omega)]
    exact ih fun d hd => h d (by simp [hd])

theorem cells_ext (m m' : Memory) (h : m.wf) (h' : m'.wf) (heq : ∀ a, cellGet m a = cellGet m' a) : m = m' := by
  induction m generalizing m' with
  | nil =>
    cases m' with
    | nil => rfl
    | cons c m' =>
      have h0 := heq c.1
      rw [cellGet, cellGet, if_pos rfl] at h0
      exact absurd h0.symm (h'.2 c (by simp)).2
  | cons c m ih =>
    obtain ⟨hc, hm⟩ := List.pairwise_cons.1 h.1
    have hv := (h.2 c (by simp)).2
    cases m' with
    | nil =>
      have h0 := heq c.1
      rw [cellGet, cellGet, if_pos rfl] at h0
      exact absurd h0 hv
    | cons d m' =>
      obtain ⟨hd, hm'⟩ := List.pairwise_cons.1 h'.1
      have hw := (h'.2 d (by simp)).2
      have hk : c.1 = d.1 := by
        rcases Nat.lt_trichotomy c.1 d.1 with hlt | heq' | hgt
        · have h0 := heq c.1
          rw [cellGet, if_pos rfl, cellGet, if_neg (by omega), cellGet_below m' c.1 (fun e he => by
            have := hd e he; omega)] at h0
          exact absurd h0 hv
        · exact heq'
        · have h0 := heq d.1
          rw [cellGet, if_neg (by omega), cellGet_below m d.1 (fun e he => by have := hc e he; omega), cellGet,
            if_pos rfl] at h0
          exact absurd h0.symm hw
      have hval : c.2 = d.2 := by
        have h0 := heq c.1
        rwa [cellGet, if_pos rfl, cellGet, if_pos hk.symm] at h0
      have htail : m = m' := by
        refine ih m' ⟨hm, fun e he => h.2 e (by simp [he])⟩ ⟨hm', fun e he => h'.2 e (by simp [he])⟩ fun a => ?_
        have h0 := heq a
        rw [cellGet, cellGet, ← hk] at h0
        by_cases ha : c.1 = a
        · rw [cellGet_below m a (fun e he => by have := hc e he; omega),
            cellGet_below m' a (fun e he => by have := hd e he; omega)]
        · rwa [if_neg ha, if_neg ha] at h0
      rw [htail, Prod.ext hk hval]

/-- Two buffers in canonical form with the same eight bytes are the same data. -/
theorem memory_ext (m m' : Memory) (h : m.wf) (h' : m'.wf) (heq : ∀ i : Fin 8, fbRead m i = fbRead m' i) : m = m' := by
  refine cells_ext m m' h h' fun a => ?_
  by_cases ha : a < 8
  · exact heq ⟨a, ha⟩
  · rw [cellGet_above m a (fun c hc => by have := (h.2 c hc).1; omega),
      cellGet_above m' a (fun c hc => by have := (h'.2 c hc).1; omega)]

end Sys2Proof.Machine
end

