-- ==== Sys2Proof/Laws/State.lean ====
section
/-! SUPPORT. What each primitive update of the state does to each field of the block: one lemma per
field per update, by rfl. -/

namespace Sys2Proof.Machine

@[simp] theorem completeOk_crc (s : Block) : (completeOk s).crc = s.crc := rfl
@[simp] theorem completeOk_fb (s : Block) : (completeOk s).fb = s.fb := rfl
@[simp] theorem completeOk_flen (s : Block) : (completeOk s).flen = s.flen := rfl
@[simp] theorem completeOk_rlen (s : Block) : (completeOk s).rlen = s.rlen := rfl
@[simp] theorem completeOk_code (s : Block) : (completeOk s).code = codeOk := rfl
@[simp] theorem completeOk_eflag (s : Block) : (completeOk s).eflag = s.eflag := rfl
@[simp] theorem completeOk_phase (s : Block) : (completeOk s).phase = s.phase := rfl
@[simp] theorem completeOk_idx (s : Block) : (completeOk s).idx = s.idx := rfl
@[simp] theorem completeOk_bit (s : Block) : (completeOk s).bit = s.bit := rfl
@[simp] theorem completeOk_opr (s : Block) : (completeOk s).opr = s.opr := rfl

@[simp] theorem prologue_crc (s : Block) : (prologue s).crc = s.crc := rfl
@[simp] theorem prologue_fb (s : Block) : (prologue s).fb = fbClear := rfl
@[simp] theorem prologue_flen (s : Block) : (prologue s).flen = s.flen := rfl
@[simp] theorem prologue_rlen (s : Block) : (prologue s).rlen = s.rlen := rfl
@[simp] theorem prologue_code (s : Block) : (prologue s).code = s.code := rfl
@[simp] theorem prologue_eflag (s : Block) : (prologue s).eflag = s.eflag := rfl
@[simp] theorem prologue_phase (s : Block) : (prologue s).phase = s.phase := rfl
@[simp] theorem prologue_idx (s : Block) : (prologue s).idx = s.idx := rfl
@[simp] theorem prologue_bit (s : Block) : (prologue s).bit = s.bit := rfl
@[simp] theorem prologue_opr (s : Block) : (prologue s).opr = s.opr := rfl

@[simp] theorem writeBody_crc (body : List Byte) (s : Block) : (writeBody body s).crc = s.crc := rfl
@[simp] theorem writeBody_fb (body : List Byte) (s : Block) : (writeBody body s).fb = memWrite s.fb 0 body := rfl
@[simp] theorem writeBody_flen (body : List Byte) (s : Block) : (writeBody body s).flen = s.flen := rfl
@[simp] theorem writeBody_rlen (body : List Byte) (s : Block) : (writeBody body s).rlen = s.rlen := rfl
@[simp] theorem writeBody_code (body : List Byte) (s : Block) : (writeBody body s).code = s.code := rfl
@[simp] theorem writeBody_eflag (body : List Byte) (s : Block) : (writeBody body s).eflag = s.eflag := rfl
@[simp] theorem writeBody_phase (body : List Byte) (s : Block) : (writeBody body s).phase = s.phase := rfl
@[simp] theorem writeBody_idx (body : List Byte) (s : Block) : (writeBody body s).idx = s.idx := rfl
@[simp] theorem writeBody_bit (body : List Byte) (s : Block) : (writeBody body s).bit = s.bit := rfl
@[simp] theorem writeBody_opr (body : List Byte) (s : Block) : (writeBody body s).opr = s.opr := rfl

@[simp] theorem crcOfBody_crc (n : Nat) (s : Block) : (crcOfBody n s).crc = crc16 (memRead s.fb 0 (n - 2)) := rfl
@[simp] theorem crcOfBody_fb (n : Nat) (s : Block) : (crcOfBody n s).fb = s.fb := rfl
@[simp] theorem crcOfBody_flen (n : Nat) (s : Block) : (crcOfBody n s).flen = s.flen := rfl
@[simp] theorem crcOfBody_rlen (n : Nat) (s : Block) : (crcOfBody n s).rlen = s.rlen := rfl
@[simp] theorem crcOfBody_code (n : Nat) (s : Block) : (crcOfBody n s).code = s.code := rfl
@[simp] theorem crcOfBody_eflag (n : Nat) (s : Block) : (crcOfBody n s).eflag = s.eflag := rfl
@[simp] theorem crcOfBody_phase (n : Nat) (s : Block) : (crcOfBody n s).phase = s.phase := rfl
@[simp] theorem crcOfBody_idx (n : Nat) (s : Block) : (crcOfBody n s).idx = s.idx := rfl
@[simp] theorem crcOfBody_bit (n : Nat) (s : Block) : (crcOfBody n s).bit = s.bit := rfl
@[simp] theorem crcOfBody_opr (n : Nat) (s : Block) : (crcOfBody n s).opr = s.opr := rfl

@[simp] theorem storeTrailer_crc (n : Nat) (s : Block) : (storeTrailer n s).crc = s.crc := rfl
@[simp] theorem storeTrailer_fb (n : Nat) (s : Block) : (storeTrailer n s).fb = memWrite s.fb (n - 2) (le16 s.crc) := rfl
@[simp] theorem storeTrailer_flen (n : Nat) (s : Block) : (storeTrailer n s).flen = s.flen := rfl
@[simp] theorem storeTrailer_rlen (n : Nat) (s : Block) : (storeTrailer n s).rlen = s.rlen := rfl
@[simp] theorem storeTrailer_code (n : Nat) (s : Block) : (storeTrailer n s).code = s.code := rfl
@[simp] theorem storeTrailer_eflag (n : Nat) (s : Block) : (storeTrailer n s).eflag = s.eflag := rfl
@[simp] theorem storeTrailer_phase (n : Nat) (s : Block) : (storeTrailer n s).phase = s.phase := rfl
@[simp] theorem storeTrailer_idx (n : Nat) (s : Block) : (storeTrailer n s).idx = s.idx := rfl
@[simp] theorem storeTrailer_bit (n : Nat) (s : Block) : (storeTrailer n s).bit = s.bit := rfl
@[simp] theorem storeTrailer_opr (n : Nat) (s : Block) : (storeTrailer n s).opr = s.opr := rfl

@[simp] theorem raise_crc (c : BitVec 2) (s : Block) : (raise c s).crc = s.crc := rfl
@[simp] theorem raise_fb (c : BitVec 2) (s : Block) : (raise c s).fb = fbClear := rfl
@[simp] theorem raise_flen (c : BitVec 2) (s : Block) : (raise c s).flen = 0#4 := rfl
@[simp] theorem raise_rlen (c : BitVec 2) (s : Block) : (raise c s).rlen = 0#18 := rfl
@[simp] theorem raise_code (c : BitVec 2) (s : Block) : (raise c s).code = c := rfl
@[simp] theorem raise_eflag (c : BitVec 2) (s : Block) : (raise c s).eflag = true := rfl
@[simp] theorem raise_phase (c : BitVec 2) (s : Block) : (raise c s).phase = s.phase := rfl
@[simp] theorem raise_idx (c : BitVec 2) (s : Block) : (raise c s).idx = s.idx := rfl
@[simp] theorem raise_bit (c : BitVec 2) (s : Block) : (raise c s).bit = s.bit := rfl
@[simp] theorem raise_opr (c : BitVec 2) (s : Block) : (raise c s).opr = s.opr := rfl

@[simp] theorem resetBlock_crc (s : Block) : (resetBlock s).crc = 0xFFFF#16 := rfl
@[simp] theorem resetBlock_fb (s : Block) : (resetBlock s).fb = [] := rfl
@[simp] theorem resetBlock_flen (s : Block) : (resetBlock s).flen = 0#4 := rfl
@[simp] theorem resetBlock_rlen (s : Block) : (resetBlock s).rlen = 0#18 := rfl
@[simp] theorem resetBlock_code (s : Block) : (resetBlock s).code = 0#2 := rfl
@[simp] theorem resetBlock_eflag (s : Block) : (resetBlock s).eflag = false := rfl
@[simp] theorem resetBlock_phase (s : Block) : (resetBlock s).phase = .idle := rfl
@[simp] theorem resetBlock_idx (s : Block) : (resetBlock s).idx = 0#3 := rfl
@[simp] theorem resetBlock_bit (s : Block) : (resetBlock s).bit = 0#3 := rfl
@[simp] theorem resetBlock_opr (s : Block) : (resetBlock s).opr = 0#51 := rfl

@[simp] theorem Block.reset_crc : Block.reset.crc = 0xFFFF#16 := rfl
@[simp] theorem Block.reset_fb : Block.reset.fb = [] := rfl
@[simp] theorem Block.reset_flen : Block.reset.flen = 0#4 := rfl
@[simp] theorem Block.reset_rlen : Block.reset.rlen = 0#18 := rfl
@[simp] theorem Block.reset_code : Block.reset.code = 0#2 := rfl
@[simp] theorem Block.reset_eflag : Block.reset.eflag = false := rfl
@[simp] theorem Block.reset_phase : Block.reset.phase = .idle := rfl
@[simp] theorem Block.reset_idx : Block.reset.idx = 0#3 := rfl
@[simp] theorem Block.reset_bit : Block.reset.bit = 0#3 := rfl
@[simp] theorem Block.reset_opr : Block.reset.opr = 0#51 := rfl

@[simp] theorem completeWith_eq (s : State) (f : Block → Block) :
    completeWith s f = .next ⟨f s.toBlock, s.script⟩ := rfl
@[simp] theorem State.reset_toBlock : State.reset.toBlock = Block.reset := rfl
@[simp] theorem State.reset_script : State.reset.script = [] := rfl

end Sys2Proof.Machine
end

