-- ==== Sys2Proof/Laws/Frame.lean ====
section
/-! SUPPORT. What building a frame does, once for all builders (`41_frame_builder.md` R80, R84). -/

namespace Sys2Proof.Machine

@[simp] theorem length_be16 (w : Word) : (be16 w).length = 2 := rfl
@[simp] theorem length_le16 (w : Word) : (le16 w).length = 2 := rfl
@[simp] theorem length_regBody (addr fc : Byte) (a b : Word) : (regBody addr fc a b).length = 6 := rfl
@[simp] theorem length_usrBody (fcCal addr fc : Byte) : (usrBody fcCal addr fc).length = 2 := rfl

/-- Reading a sequence back from where it was written. -/
theorem memRead_memWrite (m : Memory) (a : Nat) (vs : List Byte) (h : m.wf) (hfit : a + vs.length ≤ 8) :
    memRead (memWrite m a vs) a vs.length = vs := by
  refine List.ext_getElem? fun i => ?_
  by_cases hi : i < vs.length
  · rw [getElem?_memRead _ a _ i hi hfit, fbRead_memWrite vs m a _ h hfit]
    simp [hi]
  · rw [List.getElem?_eq_none (by rw [length_memRead _ _ _ hfit]; omega), List.getElem?_eq_none (by omega)]

/-- A write leaves a sequence that lies below it alone. -/
theorem memRead_memWrite_below (m : Memory) (a n k : Nat) (vs : List Byte) (h : m.wf) (hfit : k + vs.length ≤ 8)
    (hbelow : a + n ≤ k) : memRead (memWrite m k vs) a n = memRead m a n := by
  refine List.ext_getElem? fun i => ?_
  by_cases hi : i < n
  · rw [getElem?_memRead _ a n i hi (by omega), getElem?_memRead _ a n i hi (by omega),
      fbRead_memWrite vs m k _ h hfit, if_neg (by simp; omega)]
  · rw [List.getElem?_eq_none (by rw [length_memRead _ _ _ (by omega)]; omega),
      List.getElem?_eq_none (by rw [length_memRead _ _ _ (by omega)]; omega)]

/-- A sequence read in two parts. -/
theorem memRead_append (m : Memory) (a n k : Nat) :
    memRead m a (n + k) = memRead m a n ++ memRead m (a + n) k := by
  simp only [memRead, ← List.drop_drop]
  exact List.take_add

/-- The buffer a builder leaves: the body, the trailer, zeros. -/
def builtMemory (body : List Byte) : Memory :=
  memWrite (memWrite fbClear 0 body) body.length (le16 (crc16 body))

theorem builtMemory_wf (body : List Byte) : Memory.wf (builtMemory body) :=
  memWrite_wf _ _ _ (memWrite_wf _ _ _ fbClear_wf)

/-- What building a frame does: everything that changes, and so all that does not. -/
theorem buildFrame_eq (body : List Byte) (n : Nat) (rlen : BitVec 18) (s : Block)
    (hn : n = body.length + 2) (hfit : n ≤ 8) :
    buildFrame n body rlen s =
      { s with crc := crc16 body, fb := builtMemory body, flen := BitVec.ofNat 4 n, rlen := rlen, code := 0#2 } := by
  subst hn
  have hread : memRead (memWrite fbClear 0 body) 0 body.length = body :=
    memRead_memWrite fbClear 0 body fbClear_wf (by omega)
  have hcrc : (crcOfBody (body.length + 2) (writeBody body (prologue s))).crc = crc16 body := by
    rw [crcOfBody_crc, writeBody_fb, prologue_fb, Nat.add_sub_cancel, hread]
  simp only [buildFrame, epilogue, completeOk, storeTrailer, hcrc]
  rfl

/-- `buildFrame_eq` for the 8-byte frames (`20_memory.md` R37). -/
@[simp] theorem buildFrame_regBody (addr fc : Byte) (a b : Word) (rlen : BitVec 18) (s : Block) :
    buildFrame 8 (regBody addr fc a b) rlen s =
      { s with
        crc := crc16 (regBody addr fc a b), fb := builtMemory (regBody addr fc a b), flen := 8#4, rlen := rlen,
        code := 0#2 } :=
  buildFrame_eq _ 8 rlen s rfl (by omega)

/-- `buildFrame_eq` for the 4-byte frame (`20_memory.md` R37). -/
@[simp] theorem buildFrame_usrBody (fcCal addr fc : Byte) (rlen : BitVec 18) (s : Block) :
    buildFrame 4 (usrBody fcCal addr fc) rlen s =
      { s with
        crc := crc16 (usrBody fcCal addr fc), fb := builtMemory (usrBody fcCal addr fc), flen := 4#4, rlen := rlen,
        code := 0#2 } :=
  buildFrame_eq _ 4 rlen s rfl (by omega)

/-- `buildFrame_eq` for a body of two bytes written out. -/
@[simp] theorem buildFrame_pair (addr fc : Byte) (rlen : BitVec 18) (s : Block) :
    buildFrame 4 [addr, fc] rlen s =
      { s with
        crc := crc16 [addr, fc], fb := builtMemory [addr, fc], flen := 4#4, rlen := rlen, code := 0#2 } :=
  buildFrame_eq _ 4 rlen s rfl (by omega)

/-- The frame in the buffer after building: the body and the little-endian trailer (`20_memory.md` R32, R37). -/
theorem memRead_builtMemory (body : List Byte) (hfit : body.length + 2 ≤ 8) :
    memRead (builtMemory body) 0 (body.length + 2) = body ++ le16 (crc16 body) := by
  rw [memRead_append, builtMemory,
    memRead_memWrite_below _ 0 _ _ _ (memWrite_wf _ _ _ fbClear_wf) (by simpa using hfit) (by omega),
    memRead_memWrite _ 0 _ fbClear_wf (by omega), Nat.zero_add]
  congr 1
  exact memRead_memWrite _ body.length (le16 (crc16 body)) (memWrite_wf _ _ _ fbClear_wf) (by simpa using hfit)

/-- Past the frame the buffer holds zeros (`10_state.md` R26 (I-b)). -/
theorem fbRead_builtMemory_past (body : List Byte) (hfit : body.length + 2 ≤ 8) (i : Fin 8)
    (hi : body.length + 2 ≤ i.val) : fbRead (builtMemory body) i = 0x00#8 := by
  rw [builtMemory, fbRead_memWrite _ _ _ i (memWrite_wf _ _ _ fbClear_wf) (by simpa using hfit), if_pos (by omega),
    fbRead_memWrite _ _ _ i fbClear_wf (by omega), if_pos (by omega), List.getElem?_eq_none (by simp; omega),
    List.getElem?_eq_none (by omega)]
  rfl

/-- A whole buffer whose trailer is the checksum of its body verifies (`41_frame_builder.md` R92). -/
theorem crcCheck_append_trailer (body : List Byte) : crcCheck (body ++ le16 (crc16 body)) = some true := by
  simp [crcCheck, crcTrailer, le16]

end Sys2Proof.Machine
end

