-- ==== Sys2Proof/Laws/PerInstr.lean ====
section
/-! SUPPORT. Facts about each instruction as syntax, one lemma per constructor. Family `TableRow`: the word of an
instruction carries the bits its row of `spec/opcode_table.json` fixes. -/

namespace Sys2Proof.Laws.TableRow

/-- The mask and the match of the row, in hexadecimal as the table prints them. -/
def row : Instr → CmdWord × CmdWord
  | .rdh _ _ _ => (0x700FF00000000#51, 0x0000300000000#51)
  | .rdi _ _ _ => (0x700FF00000000#51, 0x0000400000000#51)
  | .rdregIllegal _ _ _ _ => (0x7000000000000#51, 0x0000000000000#51)
  | .wsr _ _ _ _ => (0x7000000000000#51, 0x1000000000000#51)
  | .usr _ _ _ _ => (0x7000000000000#51, 0x2000000000000#51)
  | .usrCal _ _ _ => (0x7000000000000#51, 0x2000000000000#51)
  | .usrRst _ _ _ => (0x7000000000000#51, 0x2000000000000#51)
  | .crcInit _ _ _ _ => (0x7000000000000#51, 0x3000000000000#51)
  | .crcUpd _ _ _ _ _ => (0x7000000000000#51, 0x4000000000000#51)
  | .reserved5 _ _ _ _ => (0x7000000000000#51, 0x5000000000000#51)
  | .reserved6 _ _ _ _ => (0x7000000000000#51, 0x6000000000000#51)
  | .reserved7 _ _ _ _ => (0x7000000000000#51, 0x7000000000000#51)

/-- The encoded word has the row's fixed bits. -/
def Statement (i : Instr) : Prop := encode i &&& (row i).1 = (row i).2

/-- The mask over `op` reads the `op` field alone. -/
theorem and_op (op : BitVec 3) (addr fc : Byte) (a b : Word) :
    packCmd op addr fc a b &&& 0x7000000000000#51 = packCmd op 0#8 0#8 0#16 0#16 := by
  ext i hi
  have hm : (0x7000000000000#51 : CmdWord) = packCmd 7#3 0#8 0#8 0#16 0#16 := by decide
  rw [hm, ← BitVec.getLsbD_eq_getElem, ← BitVec.getLsbD_eq_getElem, BitVec.getLsbD_and, getLsbD_packCmd,
    getLsbD_packCmd, getLsbD_packCmd]
  have h7 : (7#3 : BitVec 3) = BitVec.allOnes 3 := by decide
  repeat' split
  all_goals simp only [h7, BitVec.getLsbD_zero, BitVec.getLsbD_allOnes, Bool.and_false]
  rw [decide_eq_true (by omega), Bool.and_true]

/-- The mask over `op` and `fc` reads these two fields alone. -/
theorem and_op_fc (op : BitVec 3) (addr fc : Byte) (a b : Word) :
    packCmd op addr fc a b &&& 0x700FF00000000#51 = packCmd op 0#8 fc 0#16 0#16 := by
  ext i hi
  have hm : (0x700FF00000000#51 : CmdWord) = packCmd 7#3 0#8 0xFF#8 0#16 0#16 := by decide
  rw [hm, ← BitVec.getLsbD_eq_getElem, ← BitVec.getLsbD_eq_getElem, BitVec.getLsbD_and, getLsbD_packCmd,
    getLsbD_packCmd, getLsbD_packCmd]
  have h7 : (7#3 : BitVec 3) = BitVec.allOnes 3 := by decide
  have hF : (0xFF#8 : Byte) = BitVec.allOnes 8 := by decide
  repeat' split
  all_goals simp only [h7, hF, BitVec.getLsbD_zero, BitVec.getLsbD_allOnes, Bool.and_false]
  all_goals rw [decide_eq_true (by omega), Bool.and_true]

theorem rdh (addr : Byte) (start count : Word) : Statement (.rdh addr start count) :=
  (and_op_fc _ _ _ _ _).trans rfl
theorem rdi (addr : Byte) (start count : Word) : Statement (.rdi addr start count) :=
  (and_op_fc _ _ _ _ _).trans rfl
theorem rdregIllegal (addr fc : Byte) (a b : Word) : Statement (.rdregIllegal addr fc a b) :=
  (and_op _ _ _ _ _).trans rfl
theorem wsr (addr fc : Byte) (reg value : Word) : Statement (.wsr addr fc reg value) :=
  (and_op _ _ _ _ _).trans rfl
theorem usr (addr fc : Byte) (a b : Word) : Statement (.usr addr fc a b) :=
  (and_op _ _ _ _ _).trans rfl
theorem usrCal (addr : Byte) (a b : Word) : Statement (.usrCal addr a b) :=
  (and_op _ _ _ _ _).trans rfl
theorem usrRst (addr : Byte) (a b : Word) : Statement (.usrRst addr a b) :=
  (and_op _ _ _ _ _).trans rfl
theorem crcInit (addr fc : Byte) (a b : Word) : Statement (.crcInit addr fc a b) :=
  (and_op _ _ _ _ _).trans rfl
theorem crcUpd (addr fc : Byte) (a : Word) (bHi byte : Byte) : Statement (.crcUpd addr fc a bHi byte) :=
  (and_op _ _ _ _ _).trans rfl
theorem reserved5 (addr fc : Byte) (a b : Word) : Statement (.reserved5 addr fc a b) :=
  (and_op _ _ _ _ _).trans rfl
theorem reserved6 (addr fc : Byte) (a b : Word) : Statement (.reserved6 addr fc a b) :=
  (and_op _ _ _ _ _).trans rfl
theorem reserved7 (addr fc : Byte) (a b : Word) : Statement (.reserved7 addr fc a b) :=
  (and_op _ _ _ _ _).trans rfl

end Sys2Proof.Laws.TableRow
end

