-- ==== Sys2Proof/Laws/Step.lean ====
section
/-! SUPPORT. What a command and a step can do, said once: later proofs cite these and unfold neither `exec` nor `step`. -/

namespace Sys2Proof.Machine

/-- A builder builds one frame that its operands fix, of 8 or 4 bytes (`41_frame_builder.md` R80). -/
theorem exec_builds (i : Instr) (h : builds i = true) :
    ∃ (body : List Byte) (rlen : BitVec 18), (body.length = 6 ∨ body.length = 2) ∧
      ∀ s, exec i s = .next { s with
        crc := crc16 body, fb := builtMemory body, flen := BitVec.ofNat 4 (body.length + 2), rlen := rlen,
        code := 0#2 } := by
  have key : ∀ (body : List Byte) (n : Nat) (rlen : BitVec 18), (body.length = 6 ∨ body.length = 2) →
      n = body.length + 2 → (∀ s, exec i s = completeWith s (buildFrame n body rlen)) →
      ∃ (body : List Byte) (rlen : BitVec 18), (body.length = 6 ∨ body.length = 2) ∧
        ∀ s, exec i s = .next { s with
          crc := crc16 body, fb := builtMemory body, flen := BitVec.ofNat 4 (body.length + 2), rlen := rlen,
          code := 0#2 } := fun body n rlen hl hn he =>
    ⟨body, rlen, hl, fun s => by rw [he s, completeWith, buildFrame_eq body n rlen s.toBlock hn (by omega), hn]⟩
  cases i with
  | rdh addr start count => exact key (regBody addr Config.fcRhr start count) 8 _ (.inl rfl) rfl fun _ => rfl
  | rdi addr start count => exact key (regBody addr Config.fcRir start count) 8 _ (.inl rfl) rfl fun _ => rfl
  | wsr addr fc reg value => exact key (regBody addr Config.fcWsr reg value) 8 _ (.inl rfl) rfl fun _ => rfl
  | usr addr fc a b => exact key (usrBody Config.fcCal addr fc) 4 _ (.inr rfl) rfl fun _ => rfl
  | usrCal addr a b => exact key [Config.calAddr, Config.fcCal] 4 _ (.inr rfl) rfl fun _ => rfl
  | usrRst addr a b => exact key [addr, Config.fcRst] 4 _ (.inr rfl) rfl fun _ => rfl
  | rdregIllegal _ _ _ _ | crcInit _ _ _ _ | crcUpd _ _ _ _ _ | reserved5 _ _ _ _ | reserved6 _ _ _ _
  | reserved7 _ _ _ _ => simp [builds] at h

/-- A streaming command changes `CRC` and writes code 0 (`40_crc_engine.md` R67, R68). -/
theorem exec_streams (i : Instr) (h : streams i = true) :
    ∃ f : Word → Word, ∀ s, exec i s = .next { s with crc := f s.crc, code := 0#2 } := by
  cases i with
  | crcInit _ _ _ _ => exact ⟨fun _ => Config.crcInit, fun _ => rfl⟩
  | crcUpd _ _ _ _ byte => exact ⟨fun c => bytestep c byte, fun _ => rfl⟩
  | rdh _ _ _ | rdi _ _ _ | wsr _ _ _ _ | usr _ _ _ _ | usrCal _ _ _ | usrRst _ _ _ | rdregIllegal _ _ _ _
  | reserved5 _ _ _ _ | reserved6 _ _ _ _ | reserved7 _ _ _ _ => simp [streams] at h

/-- Every other command takes an exception (`60_exceptions.md` R117, R118). -/
theorem exec_faults (i : Instr) (hb : builds i = false) (hs : streams i = false) :
    ∃ code : BitVec 2, (code = codeInvalidArgument ∨ code = codeIllegalCommand) ∧
      ∀ s, exec i s = completeWith s (raise code) := by
  cases i with
  | rdregIllegal _ _ _ _ => exact ⟨_, .inl rfl, fun _ => rfl⟩
  | reserved5 _ _ _ _ | reserved6 _ _ _ _ | reserved7 _ _ _ _ => exact ⟨_, .inr rfl, fun _ => rfl⟩
  | rdh _ _ _ | rdi _ _ _ | wsr _ _ _ _ | usr _ _ _ _ | usrCal _ _ _ | usrRst _ _ _ => simp [builds] at hb
  | crcInit _ _ _ _ | crcUpd _ _ _ _ _ => simp [streams] at hs

/-- Every command changes the block alone, to a state that the command and the block's state fix: the host's further
inputs play no part (`10_state.md` R20 (a)). -/
theorem exec_block (i : Instr) : ∃ f : Block → Block, ∀ s, exec i s = completeWith s f := by
  cases i with
  | crcInit _ _ _ _ => exact ⟨fun b => completeOk { b with crc := Config.crcInit }, fun _ => rfl⟩
  | crcUpd _ _ _ _ byte => exact ⟨fun b => completeOk { b with crc := bytestep b.crc byte }, fun _ => rfl⟩
  | rdh _ _ _ | rdi _ _ _ | wsr _ _ _ _ | usr _ _ _ _ | usrCal _ _ _ | usrRst _ _ _ | rdregIllegal _ _ _ _
  | reserved5 _ _ _ _ | reserved6 _ _ _ _ | reserved7 _ _ _ _ => exact ⟨_, fun _ => rfl⟩

/-- Everything a step can do, by the host's next action. -/
theorem step_cases {s t : State} (h : step s = .next t) :
    (s.script = [] ∧ t = ⟨clock .quiet s.toBlock, s.script⟩) ∨
    (∃ rest, s.script = .reset :: rest ∧ t = ⟨Block.reset, rest⟩) ∨
    (∃ p rest, s.script = .clock p :: rest ∧ t = ⟨clock p s.toBlock, rest⟩) ∨
    (∃ w rest, s.script = .command w :: rest ∧ s.phase ≠ .idle ∧ t = ⟨clock .quiet s.toBlock, s.script⟩) ∨
    (∃ w rest, s.script = .command w :: rest ∧ s.phase = .idle ∧
      exec (decode w) { s with script := rest } = .next t) := by
  unfold step at h
  split at h
  · next hs => exact .inl ⟨hs, (Host.Outcome.next.inj h).symm⟩
  · next rest hs => exact .inr (.inl ⟨rest, hs, (Host.Outcome.next.inj h).symm⟩)
  · next p rest hs => exact .inr (.inr (.inl ⟨p, rest, hs, (Host.Outcome.next.inj h).symm⟩))
  · next w rest hs =>
    split at h
    · next hb =>
      exact .inr (.inr (.inr (.inl ⟨w, rest, hs, by simpa [Block.busy] using hb, (Host.Outcome.next.inj h).symm⟩)))
    · next hb => exact .inr (.inr (.inr (.inr ⟨w, rest, hs, by simpa [Block.busy] using hb, h⟩)))

/-- One step and then the rest of a run, of any machine. -/
theorem core_run_succ (M : Host.Core) (k : Nat) (s t : M.State) (h : M.step s = .next t) :
    M.run (k + 1) s = M.run k t := by
  rw [Host.Core.run.eq_def]
  simp only [h]

/-- One step and then the rest of a run. -/
theorem run_succ (k : Nat) (s t : State) (h : step s = .next t) :
    Sys2Proof.core.run (k + 1) s = Sys2Proof.core.run k t := core_run_succ Sys2Proof.core k s t h

end Sys2Proof.Machine
end

