-- ==== Sys2Proof/Tests/Slice0.lean ====
section
/-! SUPPORT. The model's own tests. The expected values are the worked vectors of `spec/95_test_vectors.md` and words
written out from `30_encoding.md` R45, R46. The `witness_…` theorems show that the hypotheses of the statements can be
met, clause by clause. -/

namespace Sys2Proof.Tests

open Sys2Proof Sys2Proof.Machine

/-! ## Helpers -/

/-- The visible state in the notation of `95_test_vectors.md`: CRC / FB[0..7] / FLEN / RLEN / CODE / EFLAG. -/
def view (s : Block) : Word × List Byte × Nat × Nat × Nat × Bool :=
  (s.crc, fbBytes s.fb, s.flen.toNat, s.rlen.toNat, s.code.toNat, s.eflag)

/-- A start state with `CRC` given and the rest as after reset. -/
def withCrc (c : Word) : Block := { Block.reset with crc := c }

/-- The state after `RDI 0x01, 0, 10` (V-F): `0x0D70 / 01 04 00 00 00 0A 70 0D / 8 / 25 / 0 / 0`. -/
def polled : Block :=
  { Block.reset with
    crc := 0x0D70#16, fb := [(0, 0x01#8), (1, 0x04#8), (5, 0x0A#8), (6, 0x70#8), (7, 0x0D#8)], flen := 8#4, rlen := 25#18 }

/-- A block beside a host that will supply these inputs. -/
def beside (script : List HostAction) (b : Block) : State := ⟨b, script⟩

/-- The next state of a step, or the state itself. -/
def stepped (s : State) : State :=
  match step s with
  | .next t => t
  | .fault _ => s
  | .refused _ => s

/-- The pins of a host that presents `w` in clock 0 and holds the port still afterwards. -/
def pinsOf (w : CmdWord) : Nat → Pins
  | 0 => ⟨false, true, w⟩
  | _ + 1 => .quiet

/-- A line of text as its command word, `none` where the text is refused or empty. -/
def wordOf (t : String) : Option CmdWord :=
  match parseLine t.toList with
  | .ok (some l) => some (assemble l)
  | .ok none => none
  | .error _ => none

/-! ## WellFormed refuses the ill-formed terms (R53) -/

theorem test_wellFormed_refuses_holding_code : WellFormed (.rdregIllegal 0x01#8 0x03#8 0#16 1#16) = false := by decide
theorem test_wellFormed_refuses_input_code : WellFormed (.rdregIllegal 0x01#8 0x04#8 0#16 1#16) = false := by decide
theorem test_wellFormed_accepts_other_code : WellFormed (.rdregIllegal 0x01#8 0x05#8 0#16 1#16) = true := by decide

/-! ## Decoding: words written bit by bit from R45: op, addr, fc, a, b -/

theorem test_decode_rdh :
    decode 0b000_00000001_00000011_0000000000000001_0000000000000010#51 = .rdh 0x01#8 1#16 2#16 := by decide
theorem test_decode_rdi :
    decode 0b000_00000010_00000100_0000000000000011_0000000000000001#51 = .rdi 0x02#8 3#16 1#16 := by decide
theorem test_decode_rdregIllegal :
    decode 0b000_00000001_00000101_0000000000000000_0000000000000001#51 = .rdregIllegal 0x01#8 0x05#8 0#16 1#16 := by
  decide
theorem test_decode_wsr :
    decode 0b001_00000001_10101010_0000000000000001_0101100111011000#51 = .wsr 0x01#8 0xAA#8 1#16 23000#16 := by decide
theorem test_decode_usr :
    decode 0b010_00010000_10011001_0001001000110100_0101011001111000#51 = .usr 0x10#8 0x99#8 0x1234#16 0x5678#16 := by
  decide
/-- The words of USR.CAL and USR.RST under the suggested codes 0x41 and 0x42 (V-U): names of USR (R52). -/
theorem test_decode_usrCal :
    decode 0b010_00000001_01000001_0000000000000000_0000000000000000#51 = .usr 0x01#8 0x41#8 0#16 0#16 := by decide
theorem test_decode_usrRst :
    decode 0b010_11111000_01000010_0000000000000000_0000000000000000#51 = .usr 0xF8#8 0x42#8 0#16 0#16 := by decide
theorem test_decode_crcInit :
    decode 0b011_00000000_00000000_0000000000000000_0000000000000000#51 = .crcInit 0#8 0#8 0#16 0#16 := by decide
theorem test_decode_crcUpd :
    decode 0b100_00010010_00110100_0101011001111000_1010101100000001#51 = .crcUpd 0x12#8 0x34#8 0x5678#16 0xAB#8 0x01#8 := by
  decide
theorem test_decode_reserved5 :
    decode 0b101_00000001_00000011_0000000000000000_0000000000000001#51 = .reserved5 0x01#8 0x03#8 0#16 1#16 := by decide
theorem test_decode_reserved6 :
    decode 0b110_00000000_00000000_0000000000000000_0000000000000000#51 = .reserved6 0#8 0#8 0#16 0#16 := by decide
theorem test_decode_reserved7 :
    decode 0b111_11111111_11111111_1111111111111111_1111111111111111#51 = .reserved7 0xFF#8 0xFF#8 0xFFFF#16 0xFFFF#16 := by
  decide
theorem test_decodeTableWord_rdh : decodeTableWord 56 0x0010300010002 = some (.rdh 0x01#8 1#16 2#16) := by decide
theorem test_decodeTableWord_wider_than_port : decodeTableWord 56 0x8010300010002 = none := by decide

/-! ## The engine (V-B, V-Y, V-C, V-T, V-K) -/

theorem test_bitstep : bitstep 0x8001#16 = 0xE001#16 ∧ bitstep 0x4002#16 = 0x2001#16 := by decide
theorem test_bytestep : bytestep 0x1234#16 0x35#8 = 0xC0D3#16 ∧ bytestep 0xABCD#16 0xCD#8 = 0x00AB#16 := by decide +kernel
theorem test_crc16_check_value :
    crc16 [0x31#8, 0x32#8, 0x33#8, 0x34#8, 0x35#8, 0x36#8, 0x37#8, 0x38#8, 0x39#8] = 0x4B37#16 := by decide +kernel
theorem test_crc16_zeros_and_ones :
    crc16 [0x00#8, 0x00#8] = 0xB001#16 ∧ crc16 [0xFF#8, 0xFF#8] = 0x0000#16 ∧ crc16 [] = 0xFFFF#16 := by decide +kernel
theorem test_crcTrailer :
    crcTrailer [0x01#8, 0x04#8, 0x00#8, 0x00#8, 0x00#8, 0x0A#8, 0xAB#8, 0xCD#8] = some (0x70#8, 0x0D#8) ∧
      crcTrailer [0x01#8] = none := by decide +kernel
theorem test_crcCheck_short :
    crcCheck [0xFF#8, 0xFF#8] = some true ∧ crcCheck [0x00#8, 0x00#8] = some false ∧
      crcCheck [0x01#8, 0x7E#8, 0x80#8] = some true := by decide +kernel
theorem test_table_and_serial_forms :
    crcTableEntry 0x7A#8 = 0xE381#16 ∧ bytestepTable 0x807E#16 0x04#8 = 0xE301#16 ∧
      serialbyte 0x807E#16 0x04#8 = 0xE301#16 := by decide +kernel

/-! ## The commands (V-R, V-W, V-U, V-S, V-F) -/

theorem test_rdh : view (commandEffect 0x0F703FFFFFFFF#51 Block.reset) =
    (0xC850#16, [0xF7#8, 0x03#8, 0xFF#8, 0xFF#8, 0xFF#8, 0xFF#8, 0x50#8, 0xC8#8], 8, 131075, 0, false) := by
  decide +kernel
theorem test_rdi : view (commandEffect 0x0020400030001#51 polled) =
    (0xF9C1#16, [0x02#8, 0x04#8, 0x00#8, 0x03#8, 0x00#8, 0x01#8, 0xC1#8, 0xF9#8], 8, 7, 0, false) := by decide +kernel
theorem test_rdregIllegal : view (commandEffect 0x0010500000001#51 polled) =
    (0x0D70#16, [0x00#8, 0x00#8, 0x00#8, 0x00#8, 0x00#8, 0x00#8, 0x00#8, 0x00#8], 0, 0, 1, true) := by decide +kernel
theorem test_wsr : view (commandEffect 0x101AA000159D8#51 Block.reset) =
    (0x00E2#16, [0x01#8, 0x06#8, 0x00#8, 0x01#8, 0x59#8, 0xD8#8, 0xE2#8, 0x00#8], 8, 8, 0, false) := by decide +kernel
theorem test_wsr_out_of_range_value : view (commandEffect 0x1010600019C40#51 polled) =
    (0xFAB0#16, [0x01#8, 0x06#8, 0x00#8, 0x01#8, 0x9C#8, 0x40#8, 0xB0#8, 0xFA#8], 8, 8, 0, false) := by decide +kernel
/-- V-U row 4 clears a longer frame; the body is written out because FC_CAL is open (it assumes FC_CAL != 0x00). -/
theorem test_usr : view (buildFrame 4 (usrBody 0x41#8 0x00#8 0x00#8) rlenUser polled) =
    (0xB001#16, [0x00#8, 0x00#8, 0x01#8, 0xB0#8, 0x00#8, 0x00#8, 0x00#8, 0x00#8], 4, 4, 0, false) := by decide +kernel
/-- V-U row 8, under the suggested FC_CAL = 0x41: the operand does not reach the frame. -/
theorem test_usr_forced_address : view (buildFrame 4 (usrBody 0x41#8 0x01#8 0x41#8) rlenUser Block.reset) =
    (0x4082#16, [0xF8#8, 0x41#8, 0x82#8, 0x40#8, 0x00#8, 0x00#8, 0x00#8, 0x00#8], 4, 4, 0, false) := by decide +kernel
theorem test_usrCal : ∃ t, exec (.usrCal 0x01#8 0#16 0#16) State.reset = .next t ∧ fbRead t.fb 0 = 0xF8#8 ∧
    t.flen = 4#4 ∧ t.rlen = 4#18 := by
  refine ⟨⟨buildFrame 4 [0xF8#8, Config.fcCal] 4#18 Block.reset, []⟩, rfl, ?_, rfl, rfl⟩
  show fbRead (buildFrame 4 [0xF8#8, Config.fcCal] 4#18 Block.reset).fb 0 = _
  rw [buildFrame_pair]
  show fbRead (memWrite _ 2 _) 0 = _
  rw [fbRead_memWrite _ _ _ _ (memWrite_wf _ _ _ fbClear_wf) (by simp), if_neg (by decide),
    fbRead_memWrite _ _ _ _ fbClear_wf (by simp)]
  rfl
theorem test_usrRst : ∃ t, exec (.usrRst 0x01#8 0#16 0#16) (beside [] polled) = .next t ∧ t.flen = 4#4 ∧ t.rlen = 4#18 ∧
    t.code = 0#2 ∧ t.eflag = false := ⟨_, rfl, rfl, rfl, rfl, rfl⟩
theorem test_crcInit : view (commandEffect 0x3FFFFFFFFFFFF#51 (withCrc 0x1234#16)) = view Block.reset := by decide +kernel
theorem test_crcUpd : commandEffect 0x412345678AB01#51 polled = { polled with crc := bytestep 0x0D70#16 0x01#8 } := by
  decide +kernel
theorem test_crcUpd_value : (commandEffect 0x4000000000034#51 (withCrc 0x1234#16)).crc = 0x0012#16 := by decide +kernel
theorem test_reserved5 : view (commandEffect 0x5010300000001#51 Block.reset) =
    (0xFFFF#16, List.replicate 8 0x00#8, 0, 0, 2, true) := by decide +kernel
theorem test_reserved6 : view (commandEffect 0x6000000000000#51 polled) =
    (0x0D70#16, List.replicate 8 0x00#8, 0, 0, 2, true) := by decide +kernel
theorem test_reserved7 : view (commandEffect 0x7FFFFFFFFFFFF#51 Block.reset) =
    (0xFFFF#16, List.replicate 8 0x00#8, 0, 0, 2, true) := by decide +kernel

/-! ## The step, reset and the placed word -/

theorem test_step_runs_placed_word : view (stepped (State.reset.withFetchWord 56 0x001040000000A)).toBlock = view polled := by
  decide +kernel
theorem test_step_reset : stepped (beside [.reset] { polled with eflag := true }) = State.reset := by decide
theorem test_step_idle : stepped (beside [] polled) = beside [] polled := by decide
/-- Part 4, step 1, on a read command: ACCEPT takes one clock and changes `PHASE` and `OPR` only. -/
theorem test_step_accept : stepped (beside [.clock ⟨false, true, 0x001040000000A#51⟩] polled) =
    beside [] { polled with phase := .fill, opr := 0x001040000000A#51 } := by decide
/-- A command stays with the host while the block, here in its last phase (R105), is busy. -/
theorem test_step_busy_waits :
    stepped (beside [.command 0#51] { polled with
      phase := .trailer, opr := 0x001040000000A#51, fb := [(0, 0x01#8), (1, 0x04#8), (5, 0x0A#8)], flen := 0#4,
      rlen := 0#18 }) =
    beside [.command 0#51] { polled with opr := 0x001040000000A#51 } := by decide +kernel
/-- The block's step on an input: V-W, and a command presented to a busy block is not accepted (R106). -/
theorem test_blockStep_command : view (blockStep (.command 0x10106000159D8#51) polled) =
    (0x00E2#16, [0x01#8, 0x06#8, 0x00#8, 0x01#8, 0x59#8, 0xD8#8, 0xE2#8, 0x00#8], 8, 8, 0, false) := by decide +kernel
theorem test_blockStep_busy :
    (blockStep (.command 0x7000000000000#51) { polled with phase := .fill, opr := 0x001040000000A#51 }).phase = .xor := by
  decide +kernel

/-! ## Micro-steps (Part 4) -/

/-- The state before step 3 of Part 4. -/
def traced : Block :=
  { Block.reset with phase := .xor, opr := 0x2014200000000#51, fb := [(0, 0x01#8), (1, 0x42#8)] }

theorem test_micro_xor : clock .quiet traced = { traced with crc := 0xFFFE#16, phase := .shift } := by decide +kernel
theorem test_micro_shift_last_of_byte :
    clock .quiet { traced with crc := 0x40FF#16, phase := .shift, bit := 7#3 } =
      { traced with crc := 0x807E#16, idx := 1#3, bit := 7#3 } := by decide +kernel
theorem test_micro_shift_last_of_body :
    clock .quiet { traced with crc := 0x2300#16, phase := .shift, idx := 1#3, bit := 7#3 } =
      { traced with crc := 0x1180#16, phase := .trailer, idx := 1#3, bit := 7#3 } := by decide +kernel
theorem test_micro_trailer :
    view (clock .quiet { traced with crc := 0x1180#16, phase := .trailer, idx := 1#3, bit := 7#3 }) =
      (0x1180#16, [0x01#8, 0x42#8, 0x80#8, 0x11#8, 0x00#8, 0x00#8, 0x00#8, 0x00#8], 4, 4, 0, false) := by decide +kernel
theorem test_micro_fill : clock .quiet { polled with phase := .fill, opr := 0x0010300010002#51 } =
    { Block.reset with phase := .xor, opr := 0x0010300010002#51, fb := [(0, 0x01#8), (1, 0x03#8), (3, 0x01#8), (5, 0x02#8)] } := by
  decide +kernel
theorem test_table_xor : tableClock .quiet traced = { traced with crc := 0x807E#16, idx := 1#3 } := by decide +kernel

/-! ## Ports (R15, R22) -/

theorem test_status_port : statusOut { polled with phase := .fill, eflag := true, code := 2#2 } = 0b1110#4 := by decide
theorem test_transmit : transmit polled = [0x01#8, 0x04#8, 0x00#8, 0x00#8, 0x00#8, 0x0A#8, 0x70#8, 0x0D#8] ∧
    fbOut polled = 0x0D700A0000000401#64 := by decide +kernel

/-! ## Assembler text (R57, R58; words of V-R, V-W, V-S) -/

theorem test_asm_rdh : wordOf "RDH 0x01, 0x0001, 2 ; read the alarm" = some 0x0010300010002#51 := by decide +kernel
theorem test_asm_wsr : wordOf "WSR 0x01,0x0001,23000" = some 0x10106000159D8#51 := by decide +kernel
theorem test_asm_crcUpd : wordOf "CRC.UPD 0xD8" = some 0x40000000000D8#51 := by decide +kernel
theorem test_asm_poll : wordOf "POLL 0x01" = some 0x001040000000A#51 := by decide +kernel
theorem test_asm_refuses_wide_operand : wordOf "RDH 256, 0, 0" = none ∧ wordOf "; nothing" = none := by decide +kernel

/-! ## Witnesses: states and operands that meet the hypotheses of the statements -/

/-- The state in the middle of `RDI 0x01, 0, 10`, before its first XOR. -/
def polling : Block :=
  { Block.reset with phase := .xor, opr := 0x001040000000A#51, fb := [(0, 0x01#8), (1, 0x04#8), (5, 0x0A#8)] }

theorem witness_ResetTakesPriority_pin : (⟨true, true, 0x7000000000000#51⟩ : Pins).rst = true := rfl
theorem witness_ResetTakesPriority_action : (beside [.reset] polled).script = .reset :: [] := rfl
theorem witness_ResetTakesPriority_eflag :
    step (beside [.reset] { polled with eflag := true }) = .next State.reset ∧ State.reset.eflag = false := ⟨rfl, rfl⟩
theorem witness_ResetTakesPriority_eflag_pin :
    step (beside [.clock ⟨true, false, 0#51⟩] { polled with eflag := true }) = .next State.reset := rfl

theorem witness_DecodeOrder_op0 : FieldsAre 0x0FF03FFFFFFFF#51 0#3 0xFF#8 0x03#8 0xFFFF#16 0xFFFF#16 ∧
    FieldsAre 0x0000400000000#51 0#3 0x00#8 0x04#8 0#16 0#16 ∧
    FieldsAre 0x0000200000000#51 0#3 0x00#8 0x02#8 0#16 0#16 ∧
    FieldsAre 0x0FF05FFFFFFFF#51 0#3 0xFF#8 0x05#8 0xFFFF#16 0xFFFF#16 := by unfold FieldsAre; decide
theorem witness_DecodeOrder_other_ops : FieldsAre 0x1FFFFFFFFFFFF#51 1#3 0xFF#8 0xFF#8 0xFFFF#16 0xFFFF#16 ∧
    FieldsAre 0x2000000000000#51 2#3 0#8 0#8 0#16 0#16 ∧ FieldsAre 0x3FFFFFFFFFFFF#51 3#3 0xFF#8 0xFF#8 0xFFFF#16 0xFFFF#16 ∧
    FieldsAre 0x400000000FF00#51 4#3 0#8 0#8 0#16 0xFF00#16 ∧ FieldsAre 0x5000000000000#51 5#3 0#8 0#8 0#16 0#16 ∧
    FieldsAre 0x6FFFFFFFFFFFF#51 6#3 0xFF#8 0xFF#8 0xFFFF#16 0xFFFF#16 ∧
    FieldsAre 0x7000000000000#51 7#3 0#8 0#8 0#16 0#16 := by unfold FieldsAre; decide
theorem witness_DecodeOfEncode : WellFormed (.rdregIllegal 0#8 0x02#8 0#16 0#16) = true ∧
    WellFormed (.rdregIllegal 0xFF#8 0x05#8 0xFFFF#16 0xFFFF#16) = true ∧ WellFormed (.usrCal 0xFF#8 0#16 0#16) = true ∧
    WellFormed (.usrRst 0#8 0xFFFF#16 0#16) = true := by decide

theorem witness_BitstepBitByBit : (0 : Nat) < 16 ∧ 13 < 16 ∧ 15 < 16 := by decide
theorem witness_TrailerAndCheck : ([] : List Byte).length < 2 ∧ [0x01#8].length < 2 := by decide
theorem witness_ZeroResidue : 2 ≤ [0xFF#8, 0xFF#8].length := by decide
theorem witness_SingleBitFlip : 0 < [0x01#8].length ∧ (7 : Nat) < 8 := by decide
theorem witness_UsrBuilds : (0x41#8 : Byte) ≠ 0x99#8 := by decide
theorem witness_IllegalRead :
    let w : CmdWord := 0x0010500000001#51
    w.extractLsb' 48 3 = 0#3 ∧ w.extractLsb' 32 8 ≠ 0x03#8 ∧ w.extractLsb' 32 8 ≠ 0x04#8 := by decide
theorem witness_ReservedOp : 5 ≤ ((0x5000000000000#51 : CmdWord).extractLsb' 48 3).toNat ∧
    5 ≤ ((0x7FFFFFFFFFFFF#51 : CmdWord).extractLsb' 48 3).toNat := by decide
theorem witness_fault_codes :
    (∃ t, exec (.rdregIllegal 0#8 0x05#8 0#16 0#16) (beside [] polled) = .next t ∧ t.code = 1#2) ∧
    ∃ t, exec (.reserved6 0#8 0#8 0#16 0#16) (beside [] polled) = .next t ∧ t.code = 2#2 := ⟨⟨_, rfl, rfl⟩, ⟨_, rfl, rfl⟩⟩
theorem witness_NothingToTransmit : builds (.reserved6 0#8 0#8 0#16 0#16) = false ∧
    streams (.reserved6 0#8 0#8 0#16 0#16) = false ∧ polled.phase = .idle := by decide
theorem witness_CrcUpd : State.reset.crc = 0xFFFF#16 ∧ (withCrc 0x807E#16).crc = 0x807E#16 := by decide
theorem witness_AccessMatrix_kinds : builds (.rdh 0#8 0#16 0#16) = true ∧ streams (.crcInit 0#8 0#8 0#16 0#16) = true ∧
    builds (.rdregIllegal 0#8 0#8 0#16 0#16) = false ∧ streams (.rdregIllegal 0#8 0#8 0#16 0#16) = false := by decide
theorem witness_AccessMatrix_second_state : polled.crc = (withCrc 0x0D70#16).crc ∧
    exec (.crcUpd 0#8 0#8 0#16 0#8 0x00#8) (beside [] polled) =
      .next (beside [] { polled with crc := bytestep 0x0D70#16 0x00#8 }) := ⟨rfl, rfl⟩
/-- The last byte and bit of an 8-byte and of a 4-byte frame, and the two trailer places of each. -/
theorem witness_BuiltFrame_and_CrcHoldsTrailer :
    builds (.rdh 0#8 0#16 0#16) = true ∧ builds (.usr 0#8 0#8 0#16 0#16) = true ∧
    (∃ t, exec (.rdh 0#8 0#16 0#16) State.reset = .next t ∧ 7 < t.flen.toNat ∧ (7 : Fin 8).val + 1 = t.flen.toNat ∧
      (6 : Fin 8).val + 2 = t.flen.toNat) ∧
    ∃ t, exec (.usr 0#8 0#8 0#16 0#16) State.reset = .next t ∧ 3 < t.flen.toNat ∧ (3 : Fin 8).val + 1 = t.flen.toNat ∧
      (2 : Fin 8).val + 2 = t.flen.toNat :=
  ⟨rfl, rfl, ⟨_, rfl, by decide, by decide, by decide⟩, ⟨_, rfl, by decide, by decide, by decide⟩⟩
theorem witness_Builders_and_NormalCompletion : builds (.usrRst 0#8 0#16 0#16) = true ∧
    streams (.crcUpd 0#8 0#8 0#16 0#8 0#8) = true := by decide

theorem witness_StepRunsDecodedCommand_idle :
    (beside [.command 0#51] polled).script = .command 0#51 :: [] ∧ polled.phase = .idle := by decide
theorem witness_StepRunsDecodedCommand_busy :
    (beside [.command 0#51] polling).script = .command 0#51 :: [] ∧ polling.phase ≠ .idle := by decide
theorem witness_RunOfCommands : State.reset.phase = .idle := rfl
theorem witness_StreamedMessage : polled.phase = .idle ∧ (0x3FFFFFFFFFFFF#51 : CmdWord).extractLsb' 48 3 = 3#3 ∧
    ∀ x ∈ [(0x4000000000001#51 : CmdWord), 0x412345678AB01#51], x.extractLsb' 48 3 = 4#3 := ⟨rfl, rfl, by simp⟩
theorem witness_StepAlways : polled.phase = .idle ∧ Pins.quiet.rst = false ∧ Pins.quiet.cmdValid = false ∧
    (beside [.clock .quiet] polled).script = .clock .quiet :: [] := by decide

theorem witness_InputIsNoState : (∀ w, HostAction.reset ≠ .command w) ∧ polled.phase = .idle ∧
    (∃ w, HostAction.command 0#51 = .command w) ∧ polling.phase ≠ .idle :=
  ⟨fun _ h => HostAction.noConfusion h, rfl, ⟨_, rfl⟩, by decide⟩

theorem witness_FrameOk_polled : FrameOk polled :=
  ⟨by decide, by decide, fun _ => by decide +kernel, by decide, by decide, by decide, by decide⟩
theorem witness_Inv_idle : polled.phase = .idle ∧ Inv polled :=
  ⟨rfl, by decide, ⟨by decide, by decide⟩, witness_FrameOk_polled⟩
theorem witness_BuildOk_polling : BuildOk polling := ⟨by decide, by decide, by decide, by decide⟩
theorem witness_Inv_fill : Inv { polled with phase := .fill, opr := 0x001040000000A#51 } :=
  ⟨by decide, ⟨by decide, by decide⟩,
    ⟨⟨by decide, by decide, fun _ => by decide +kernel, by decide, by decide, by decide, by decide⟩, by decide⟩⟩
theorem witness_Inv_xor : Inv polling := ⟨by decide, ⟨by decide, by decide⟩, witness_BuildOk_polling, by decide +kernel⟩
theorem witness_Inv_shift_of_body : Inv { polling with phase := .shift, crc := 0xFFFE#16 } :=
  ⟨by decide, ⟨by decide, by decide⟩, .inr ⟨⟨by decide, by decide, by decide, by decide⟩, by decide +kernel⟩⟩
theorem witness_Inv_shift_of_update :
    Inv { polled with phase := .shift, opr := 0x4000000000001#51, bit := 3#3, crc := 0x1234#16 } :=
  ⟨by decide, ⟨by decide, by decide⟩,
    .inl ⟨⟨by decide, by decide, fun _ => by decide +kernel, by decide, by decide, by decide, by decide⟩, by decide⟩⟩
theorem witness_Inv_trailer : Inv { polling with phase := .trailer, idx := 5#3, bit := 7#3, crc := 0x0D70#16 } :=
  ⟨by decide, ⟨by decide, by decide⟩, ⟨by decide, by decide, by decide, by decide⟩, by decide +kernel⟩
theorem witness_Inv_after_fault : Inv { Block.reset with code := 1#2, eflag := true } :=
  ⟨by decide, ⟨by decide, by decide⟩,
    ⟨by decide, by decide, fun h => absurd rfl h, by decide, by decide, by decide, by decide⟩⟩
theorem witness_StepKeepsInvariant : ∃ t, step (beside [] polling) = .next t := ⟨_, rfl⟩

/-- With the words of `witness_DecodeOrder_op0` and `witness_DecodeOrder_other_ops`: every clause of ACCEPT. -/
theorem witness_AcceptMicroStep (w : CmdWord) : polled.phase = .idle ∧ (pinsOf w 0).rst = false ∧
    (pinsOf w 0).cmdValid = true ∧ (pinsOf w 0).cmd = w := ⟨rfl, rfl, rfl, rfl⟩
/-- The start of FILL with the command `w` latched. -/
def filling (w : CmdWord) : Block := { polled with phase := .fill, opr := w }
theorem witness_FillMicroStep (w : CmdWord) : (filling w).phase = .fill ∧ Pins.quiet.rst = false := ⟨rfl, rfl⟩
theorem witness_FillMicroStep_fields :
    FieldsAre (filling 0x0FF04FFFFFFFF#51).opr 0#3 0xFF#8 0x04#8 0xFFFF#16 0xFFFF#16 ∧
    FieldsAre (filling 0x1000600000000#51).opr 1#3 0#8 0x06#8 0#16 0#16 ∧
    FieldsAre (filling 0x2FFFF00000000#51).opr 2#3 0xFF#8 0xFF#8 0#16 0#16 := by unfold FieldsAre; decide
/-- SHIFT of the command `w`, at body byte `i`, after `b` iterations. -/
def shifting (w : CmdWord) (i b : BitVec 3) : Block :=
  { Block.reset with phase := .shift, opr := w, idx := i, bit := b }
theorem witness_Shift_before_last :
    (shifting 0#51 0#3 6#3).phase = .shift ∧ (shifting 0#51 0#3 6#3).bit.toNat < 7 := by decide
theorem witness_Shift_last_of_update :
    let s := shifting 0x4000000000001#51 0#3 7#3
    s.phase = .shift ∧ s.bit = 7#3 ∧ s.opr.extractLsb' 48 3 = 4#3 := by decide
theorem witness_Shift_last_of_user_body (i : BitVec 3) :
    let s := shifting 0x2014200000000#51 i 7#3
    s.phase = .shift ∧ s.bit = 7#3 ∧ s.opr.extractLsb' 48 3 = 2#3 ∧ s.opr.extractLsb' 48 3 ≠ 4#3 ∧
      frameLen s.opr = 4 ∧ (1#3 : BitVec 3).toNat = 4 - 3 ∧ (0#3 : BitVec 3).toNat < 4 - 3 := by
  revert i; decide
theorem witness_Shift_last_of_register_body (i : BitVec 3) :
    let s := shifting 0x10106000159D8#51 i 7#3
    s.phase = .shift ∧ s.bit = 7#3 ∧ s.opr.extractLsb' 48 3 = 1#3 ∧ s.opr.extractLsb' 48 3 ≠ 4#3 ∧
      frameLen s.opr = 8 ∧ (5#3 : BitVec 3).toNat = 8 - 3 ∧ (4#3 : BitVec 3).toNat < 8 - 3 := by
  revert i; decide
/-- TRAILER of the command `w` after `m` went into the buffer. -/
def trailing (w : CmdWord) (m : Memory) : Block := { Block.reset with phase := .trailer, opr := w, fb := m }
theorem witness_TrailerMicroStep_read :
    let s := trailing 0x0FF03FFFFFFFF#51 polling.fb
    s.phase = .trailer ∧ Pins.quiet.rst = false ∧ Memory.wf s.fb ∧ s.opr.extractLsb' 48 3 = 0#3 ∧
      131075 = 5 + 2 * (s.opr.extractLsb' 0 16).toNat := by decide
theorem witness_TrailerMicroStep_others :
    let s := trailing 0x10106000159D8#51 polling.fb
    let t := trailing 0x2014200000000#51 traced.fb
    s.phase = .trailer ∧ Memory.wf s.fb ∧ s.opr.extractLsb' 48 3 = 1#3 ∧ t.phase = .trailer ∧ Memory.wf t.fb ∧
      t.opr.extractLsb' 48 3 = 2#3 := by decide
theorem witness_BusyBlock : polling.phase ≠ .idle ∧ Pins.quiet.rst = (pinsOf 0#51 0).rst ∧ Pins.quiet ≠ pinsOf 0#51 0 := by
  decide
/-- The clauses of the table about IDLE; the witnesses for FILL, SHIFT and TRAILER stand above. -/
theorem witness_PhaseTransition : polled.phase = .idle ∧ Pins.quiet.rst = false ∧ Pins.quiet.cmdValid = false ∧
    polling.phase = .xor := ⟨rfl, rfl, rfl, rfl⟩
/-- For the statements about a whole run of micro-steps: an idle state and pins with one command and no reset. -/
theorem witness_Refinement (w : CmdWord) : polled.phase = .idle ∧ pinsOf w 0 = ⟨false, true, w⟩ ∧
    ∀ k, (pinsOf w k).rst = false := ⟨rfl, rfl, fun k => by cases k <;> rfl⟩
theorem witness_OutputPorts : polled.phase = .idle := rfl

end Sys2Proof.Tests
end

section
/-! SUPPORT. The state family (`10_state.md`): the values after reset (R24), the access matrix (R25), the output ports of an
idle block (R22). -/

namespace Sys2Proof.Machine

/-! ## Reset -/

/-- Settles O1: each register of `State.reset` against R24, the buffer by reading the cleared memory. -/
theorem resetStateValues : Obligations.ResetStateValues :=
  ⟨rfl, fbRead_fbClear, rfl, rfl, rfl, rfl, rfl, rfl, rfl, rfl, rfl⟩

/-! ## Which command writes which state -/

/-- The `op` of each command (`30_encoding.md` R46). -/
def opOf : Instr → BitVec 3
  | .rdh _ _ _ | .rdi _ _ _ | .rdregIllegal _ _ _ _ => 0#3
  | .wsr _ _ _ _ => 1#3
  | .usr _ _ _ _ | .usrCal _ _ _ | .usrRst _ _ _ => 2#3
  | .crcInit _ _ _ _ => 3#3
  | .crcUpd _ _ _ _ _ => 4#3
  | .reserved5 _ _ _ _ => 5#3
  | .reserved6 _ _ _ _ => 6#3
  | .reserved7 _ _ _ _ => 7#3

/-- The encoder puts a command's `op` at `CMD[50:48]` (`30_encoding.md` R45). -/
theorem cmdOp_encode (i : Instr) : cmdOp (encode i) = opOf i := by
  cases i <;> exact cmdOp_packCmd _ _ _ _ _

/-- The lengths a builder writes, by its `op`: `FLEN` is 4 for USR and else 8, `RLEN` is 8 for WSR and 4 for USR
(`41_frame_builder.md` R84, R88). -/
theorem exec_builds_lengths {i : Instr} (h : builds i = true) {s t : State} (ht : exec i s = .next t) :
    t.flen = (if opOf i = 2#3 then 4#4 else 8#4) ∧ (opOf i = 1#3 → t.rlen = 8#18) ∧ (opOf i = 2#3 → t.rlen = 4#18) := by
  cases i with
  | rdh _ _ _ | rdi _ _ _ =>
    obtain rfl := Host.Outcome.next.inj ht
    exact ⟨rfl, fun hop => absurd (show 0#3 = 1#3 from hop) (by decide),
      fun hop => absurd (show 0#3 = 2#3 from hop) (by decide)⟩
  | wsr _ _ _ _ =>
    obtain rfl := Host.Outcome.next.inj ht
    exact ⟨rfl, fun _ => rfl, fun hop => absurd (show 1#3 = 2#3 from hop) (by decide)⟩
  | usr _ _ _ _ | usrCal _ _ _ | usrRst _ _ _ =>
    obtain rfl := Host.Outcome.next.inj ht
    exact ⟨rfl, fun hop => absurd (show 2#3 = 1#3 from hop) (by decide), fun _ => rfl⟩
  | rdregIllegal _ _ _ _ | crcInit _ _ _ _ | crcUpd _ _ _ _ _ | reserved5 _ _ _ _ | reserved6 _ _ _ _
  | reserved7 _ _ _ _ => simp [builds] at h

/-- CRC.INIT is the streaming command with `op` = 3, and it presets the register (`40_crc_engine.md` R67). -/
theorem exec_streams_crc_of_op_three {i : Instr} (h : streams i = true) (hop : opOf i = 3#3) {s t : State}
    (ht : exec i s = .next t) : t.crc = 0xFFFF#16 := by
  cases i with
  | crcInit _ _ _ _ =>
    obtain rfl := Host.Outcome.next.inj ht
    rfl
  | crcUpd _ _ _ _ _ => exact absurd (show 4#3 = 3#3 from hop) (by decide)
  | rdh _ _ _ | rdi _ _ _ | wsr _ _ _ _ | usr _ _ _ _ | usrCal _ _ _ | usrRst _ _ _ | rdregIllegal _ _ _ _
  | reserved5 _ _ _ _ | reserved6 _ _ _ _ | reserved7 _ _ _ _ => simp [streams] at h

/-- The code of a faulting command, by its `op`: InvalidArgument is raised by `op` = 0 alone (`60_exceptions.md` R117,
R118). -/
theorem exec_faults_code {i : Instr} (hb : builds i = false) (hs : streams i = false) {s t : State}
    (ht : exec i s = .next t) : t.code = (if opOf i = 0#3 then 1#2 else 2#2) := by
  cases i with
  | rdregIllegal _ _ _ _ | reserved5 _ _ _ _ | reserved6 _ _ _ _ | reserved7 _ _ _ _ =>
    obtain rfl := Host.Outcome.next.inj ht
    rfl
  | rdh _ _ _ | rdi _ _ _ | wsr _ _ _ _ | usr _ _ _ _ | usrCal _ _ _ | usrRst _ _ _ => simp [builds] at hb
  | crcInit _ _ _ _ | crcUpd _ _ _ _ _ => simp [streams] at hs

/-- The builders' rows of the access matrix: every architectural register but `EFLAG` is written, to values that do not depend
on the state. -/
theorem exec_builds_access {i : Instr} (h : builds i = true) {s t : State} (ht : exec i s = .next t) :
    t.code = 0#2 ∧ t.eflag = s.eflag ∧ ∀ s' t', exec i s' = .next t' →
      t'.crc = t.crc ∧ t'.fb = t.fb ∧ t'.flen = t.flen ∧ t'.rlen = t.rlen ∧ t'.code = t.code := by
  obtain ⟨body, rlen, -, hexec⟩ := exec_builds i h
  obtain rfl := Host.Outcome.next.inj ((hexec s).symm.trans ht)
  refine ⟨rfl, rfl, fun s' t' ht' => ?_⟩
  obtain rfl := Host.Outcome.next.inj ((hexec s').symm.trans ht')
  exact ⟨rfl, rfl, rfl, rfl, rfl⟩

/-- The streaming commands' rows of the access matrix: `CRC`, from `CRC` alone, and the code. -/
theorem exec_streams_access {i : Instr} (h : streams i = true) {s t : State} (ht : exec i s = .next t) :
    t.fb = s.fb ∧ t.flen = s.flen ∧ t.rlen = s.rlen ∧ t.code = 0#2 ∧ t.eflag = s.eflag ∧
      ∀ s' t', s'.crc = s.crc → exec i s' = .next t' → t'.crc = t.crc := by
  obtain ⟨f, hexec⟩ := exec_streams i h
  obtain rfl := Host.Outcome.next.inj ((hexec s).symm.trans ht)
  refine ⟨rfl, rfl, rfl, rfl, rfl, fun s' t' hcrc ht' => ?_⟩
  obtain rfl := Host.Outcome.next.inj ((hexec s').symm.trans ht')
  exact congrArg f hcrc

/-- The faulting commands' rows of the access matrix: everything but `CRC` and the code is fixed by fault entry. -/
theorem exec_faults_access {i : Instr} (hb : builds i = false) (hs : streams i = false) {s t : State}
    (ht : exec i s = .next t) :
    t.crc = s.crc ∧ (∀ j : Fin 8, fbRead t.fb j = 0x00#8) ∧ t.flen = 0#4 ∧ t.rlen = 0#18 ∧ t.eflag = true := by
  obtain ⟨code, -, hexec⟩ := exec_faults i hb hs
  obtain rfl := Host.Outcome.next.inj ((hexec s).symm.trans ht)
  exact ⟨rfl, fbRead_fbClear, rfl, rfl, rfl⟩

/-- Settles O31: the three kinds of command, each by its rows of the matrix and by what its `op` adds. -/
theorem accessMatrix : Obligations.AccessMatrix := by
  intro i s
  obtain ⟨f, hexec⟩ := exec_block i
  have ht : exec i s = .next ⟨f s.toBlock, s.script⟩ := hexec s
  have hop : (encode i).extractLsb' 48 3 = opOf i := cmdOp_encode i
  rw [hop]
  refine ⟨_, ht, fun hb => ?_, fun hs => ?_, fun hb hs => ?_⟩
  · obtain ⟨hflen, hwrite, huser⟩ := exec_builds_lengths hb ht
    exact ⟨hflen, hwrite, huser, exec_builds_access hb ht⟩
  · exact ⟨fun h3 => exec_streams_crc_of_op_three hs h3 ht, exec_streams_access hs ht⟩
  · obtain ⟨hcrc, hfb, hflen, hrlen, heflag⟩ := exec_faults_access hb hs ht
    exact ⟨hcrc, hfb, hflen, hrlen, exec_faults_code hb hs ht, heflag⟩

/-! ## The ports of an idle block -/

/-- Above its lowest byte a word is what stands left of that byte. -/
theorem extractLsb'_append_byte {w : Nat} (x : BitVec w) (b : Byte) (k : Nat) :
    (x ++ b).extractLsb' (8 * (k + 1)) 8 = x.extractLsb' (8 * k) 8 :=
  BitVec.extractLsb'_append_eq_of_le (Nat.le_mul_of_pos_right 8 k.succ_pos)

/-- `FB_OUT` carries byte `i` at bits `8*i+7 : 8*i` (R22): byte `i` is the lowest once the `i` bytes right of it are gone, and
byte 7 is all that is left then. -/
theorem extractLsb'_fbPort (m : Memory) (i : Fin 8) : (fbPort m).extractLsb' (8 * i.val) 8 = fbRead m i := by
  unfold fbPort
  fin_cases i
  all_goals iterate rw [extractLsb'_append_byte]
  iterate 7 exact BitVec.extractLsb'_append_eq_right
  exact BitVec.extractLsb'_eq_self

/-- The bytes of `FB_OUT` in index order are the bytes of the buffer. -/
theorem map_extractLsb'_fbPort (m : Memory) :
    (List.range 8).map (fun i => (fbPort m).extractLsb' (8 * i) 8) = fbBytes m := by
  rw [← List.map_coe_finRange_eq_range, List.map_map]
  exact List.map_congr_left fun i _ => extractLsb'_fbPort m i

theorem busy_of_idle {s : Block} (h : s.phase = .idle) : s.busy = false := by simp [Block.busy, h]

/-- While the block is idle the data ports show the registers (R22). -/
theorem outputs_of_idle {s : Block} (h : s.phase = .idle) : outputs s = registerPorts s := by
  simp [outputs, busy_of_idle h]

/-- The transmit sequence of an idle block is the frame in its buffer (R22). -/
theorem transmit_of_idle {s : Block} (h : s.phase = .idle) : transmit s = memRead s.fb 0 s.flen.toNat := by
  simp only [transmit, fbOut, flenOut, outputs_of_idle h, registerPorts, map_extractLsb'_fbPort, memRead, List.drop_zero]

/-- Settles O55: with `BUSY` = 0 the data ports are the registers, and the bytes of `FB_OUT` are the buffer's. -/
theorem outputPortsOfIdleBlock : Obligations.OutputPortsOfIdleBlock := by
  intro s hidle
  have hports := outputs_of_idle hidle
  have hcrc : crcOut s = s.crc := congrArg OutputPorts.crc hports
  have hfb : fbOut s = fbPort s.fb := congrArg OutputPorts.fb hports
  refine ⟨hcrc, congrArg lo8 hcrc, congrArg hi8 hcrc, fun i => hfb ▸ extractLsb'_fbPort s.fb i,
    congrArg OutputPorts.flen hports, congrArg OutputPorts.rlen hports, ?_, ?_, transmit_of_idle hidle⟩
  · simp only [statusOut, statusWord, busy_of_idle hidle]
    rfl
  · simp only [cmdReady, busy_of_idle hidle, Bool.not_false]

end Sys2Proof.Machine
end

section
/-! SUPPORT. The memory family (`20_memory.md`): what a command issued twice in a row leaves (R36). -/

namespace Sys2Proof.Machine

/-- A builder issued again leaves the state it finds: all it writes is fixed by its operands. -/
theorem exec_builds_idempotent {i : Instr} (h : builds i = true) {s t : State} (ht : exec i s = .next t) :
    exec i t = .next t := by
  obtain ⟨body, rlen, -, hexec⟩ := exec_builds i h
  obtain rfl := Host.Outcome.next.inj ((hexec s).symm.trans ht)
  exact hexec _

/-- CRC.UPD absorbs its byte into `CRC` each time it is issued (`40_crc_engine.md` R68). -/
theorem exec_crcUpd_twice (addr fc : Byte) (a : Word) (bHi byte : Byte) (s : State) :
    ∃ t u, exec (.crcUpd addr fc a bHi byte) s = .next t ∧ exec (.crcUpd addr fc a bHi byte) t = .next u ∧
      t.crc = bytestep s.crc byte ∧ u.crc = bytestep (bytestep s.crc byte) byte :=
  ⟨_, _, rfl, rfl, rfl, rfl⟩

/-- A second byte 0x01 after reset moves `CRC` on from 0x807E (`40_crc_engine.md` R63). -/
theorem bytestep_twice_ne_once_of_reset :
    bytestep (bytestep State.reset.crc 0x01#8) 0x01#8 ≠ bytestep State.reset.crc 0x01#8 := by
  decide +kernel

/-- Settles O35: a builder leaves its own result alone, two CRC.UPD compose `bytestep`, and from reset the second one
changes `CRC`. -/
theorem buildersIdempotentUpdNot : Obligations.BuildersIdempotentUpdNot := by
  refine ⟨fun i s hb => ?_, fun addr fc a bHi byte s => ?_, State.reset, ?_⟩
  · obtain ⟨_, hexec⟩ := exec_block i
    exact ⟨_, hexec s, exec_builds_idempotent hb (hexec s)⟩
  · obtain ⟨t, u, ht, hu, -, hcrc⟩ := exec_crcUpd_twice addr fc a bHi byte s
    exact ⟨t, u, ht, hu, hcrc⟩
  · obtain ⟨t, u, ht, hu, hcrct, hcrcu⟩ := exec_crcUpd_twice 0#8 0#8 0#16 0#8 0x01#8 State.reset
    refine ⟨t, u, ht, hu, fun hut => bytestep_twice_ne_once_of_reset ?_⟩
    rw [← hcrcu, ← hcrct, hut]

end Sys2Proof.Machine
end

section
/-! SUPPORT. The encoding family (`30_encoding.md`): the places of the fields (R45), the decoder's order (R52), the
words that fault (R53, R54), and the ignored fields (R47). -/

namespace Sys2Proof.Machine

/-! ## The fields of a word -/

/-- A packed word has its five fields at the places of R45. -/
theorem fieldsAre_packCmd (op : BitVec 3) (addr fc : Byte) (a b : Word) :
    FieldsAre (packCmd op addr fc a b) op addr fc a b :=
  ⟨cmdOp_packCmd op addr fc a b, cmdAddr_packCmd op addr fc a b, cmdFc_packCmd op addr fc a b,
    cmdA_packCmd op addr fc a b, cmdB_packCmd op addr fc a b⟩

/-- The five fields fix the word. -/
theorem eq_packCmd_of_fieldsAre {w : CmdWord} {op : BitVec 3} {addr fc : Byte} {a b : Word}
    (h : FieldsAre w op addr fc a b) : w = packCmd op addr fc a b := by
  obtain ⟨rfl, rfl, rfl, rfl, rfl⟩ := h
  exact (packCmd_fields w).symm

/-- A word with this `op` is packed from it and the word's other fields. -/
theorem eq_packCmd_of_op {w : CmdWord} {op : BitVec 3} (h : cmdOp w = op) :
    w = packCmd op (cmdAddr w) (cmdFc w) (cmdA w) (cmdB w) :=
  eq_packCmd_of_fieldsAre ⟨h, rfl, rfl, rfl, rfl⟩

/-- Settles O3: every command is encoded by packing, and a packed word has its fields in place. -/
theorem encodedFieldPlaces : Obligations.EncodedFieldPlaces := by
  refine ⟨?_, ?_, ?_, ?_, ?_, ?_, ?_, ?_, ?_, ?_, ?_, ?_⟩
  all_goals
    intros
    exact fieldsAre_packCmd _ _ _ _ _

/-! ## The decoder on a packed word, `op` by `op` (`30_encoding.md` R52) -/

section
variable (addr fc : Byte) (a b : Word)

@[simp] theorem decode_packCmd_rdh : decode (packCmd 0#3 addr 0x03#8 a b) = .rdh addr a b := by simp [decode]

@[simp] theorem decode_packCmd_rdi : decode (packCmd 0#3 addr 0x04#8 a b) = .rdi addr a b := by simp [decode]

theorem decode_packCmd_rdregIllegal (h3 : fc ≠ 0x03#8) (h4 : fc ≠ 0x04#8) :
    decode (packCmd 0#3 addr fc a b) = .rdregIllegal addr fc a b := by simp [decode, h3, h4]

@[simp] theorem decode_packCmd_wsr : decode (packCmd 1#3 addr fc a b) = .wsr addr fc a b := by simp [decode]

@[simp] theorem decode_packCmd_usr : decode (packCmd 2#3 addr fc a b) = .usr addr fc a b := by simp [decode]

@[simp] theorem decode_packCmd_crcInit : decode (packCmd 3#3 addr fc a b) = .crcInit addr fc a b := by simp [decode]

@[simp] theorem decode_packCmd_crcUpd :
    decode (packCmd 4#3 addr fc a b) = .crcUpd addr fc a (b.extractLsb' 8 8) (b.extractLsb' 0 8) := by simp [decode]

@[simp] theorem decode_packCmd_reserved5 : decode (packCmd 5#3 addr fc a b) = .reserved5 addr fc a b := by
  simp [decode]

@[simp] theorem decode_packCmd_reserved6 : decode (packCmd 6#3 addr fc a b) = .reserved6 addr fc a b := by
  simp [decode]

@[simp] theorem decode_packCmd_reserved7 : decode (packCmd 7#3 addr fc a b) = .reserved7 addr fc a b := by
  simp [decode]

end

/-- Settles O4: a word is packed from its fields, and the decoder's equations on packed words are the cases of R52. -/
theorem decodeOrderByOpThenFc : Obligations.DecodeOrderByOpThenFc := by
  refine ⟨fun addr a b => ⟨decode_packCmd_usr addr _ a b, decode_packCmd_usr addr _ a b⟩, fun w addr fc a b => ?_⟩
  refine ⟨fun h h3 => ?_, fun h h4 => ?_, fun h h3 h4 => ?_, fun h => ?_, fun h => ?_, fun h => ?_, fun h => ?_,
    fun h => ?_, fun h => ?_, fun h => ?_⟩
  all_goals obtain rfl := eq_packCmd_of_fieldsAre h
  · subst h3
    exact decode_packCmd_rdh addr a b
  · subst h4
    exact decode_packCmd_rdi addr a b
  · exact decode_packCmd_rdregIllegal addr fc a b h3 h4
  · exact decode_packCmd_wsr addr fc a b
  · exact decode_packCmd_usr addr fc a b
  · exact decode_packCmd_crcInit addr fc a b
  · exact decode_packCmd_crcUpd addr fc a b
  · exact decode_packCmd_reserved5 addr fc a b
  · exact decode_packCmd_reserved6 addr fc a b
  · exact decode_packCmd_reserved7 addr fc a b

/-! ## The words that fault -/

/-- A command whose whole effect is to take an exception enters the fault with that code (`60_exceptions.md` R119). -/
theorem entersFault_of_raise {i : Instr} {s : State} {code : BitVec 2} (h : exec i s = completeWith s (raise code)) :
    EntersFault i s code :=
  ⟨fbClear, h, fbRead_fbClear⟩

theorem entersFault_rdregIllegal (addr fc : Byte) (a b : Word) (s : State) :
    EntersFault (.rdregIllegal addr fc a b) s 1#2 :=
  entersFault_of_raise rfl

theorem entersFault_reserved5 (addr fc : Byte) (a b : Word) (s : State) :
    EntersFault (.reserved5 addr fc a b) s 2#2 :=
  entersFault_of_raise rfl

theorem entersFault_reserved6 (addr fc : Byte) (a b : Word) (s : State) :
    EntersFault (.reserved6 addr fc a b) s 2#2 :=
  entersFault_of_raise rfl

theorem entersFault_reserved7 (addr fc : Byte) (a b : Word) (s : State) :
    EntersFault (.reserved7 addr fc a b) s 2#2 :=
  entersFault_of_raise rfl

/-- The code a command ends with says which kind of command it was: 0 for one that completes normally, 1 for the illegal
read alone, 2 for a reserved `op` alone (`60_exceptions.md` R116 to R118). -/
theorem exec_code_cases {i : Instr} {s t : State} (ht : exec i s = .next t) :
    t.code = 0#2 ∨ (t.code = 1#2 ∧ ∃ addr fc a b, i = .rdregIllegal addr fc a b) ∨
    (t.code = 2#2 ∧ ∃ addr fc a b,
      i = .reserved5 addr fc a b ∨ i = .reserved6 addr fc a b ∨ i = .reserved7 addr fc a b) := by
  cases i with
  | rdh _ _ _ | rdi _ _ _ | wsr _ _ _ _ | usr _ _ _ _ | usrCal _ _ _ | usrRst _ _ _ =>
    obtain ⟨hcode, -⟩ := exec_builds_access rfl ht
    exact .inl hcode
  | crcInit _ _ _ _ | crcUpd _ _ _ _ _ =>
    obtain ⟨-, -, -, hcode, -⟩ := exec_streams_access rfl ht
    exact .inl hcode
  | rdregIllegal addr fc a b => exact .inr (.inl ⟨exec_faults_code rfl rfl ht, addr, fc, a, b, rfl⟩)
  | reserved5 addr fc a b => exact .inr (.inr ⟨exec_faults_code rfl rfl ht, addr, fc, a, b, .inl rfl⟩)
  | reserved6 addr fc a b => exact .inr (.inr ⟨exec_faults_code rfl rfl ht, addr, fc, a, b, .inr (.inl rfl)⟩)
  | reserved7 addr fc a b => exact .inr (.inr ⟨exec_faults_code rfl rfl ht, addr, fc, a, b, .inr (.inr rfl)⟩)

/-- Settles O26: a word with `op` = 0 and another `fc` decodes to the illegal read, which takes the exception; code 1 is
written by no other command. -/
theorem illegalReadRaisesInvalidArgument : Obligations.IllegalReadRaisesInvalidArgument := by
  refine ⟨entersFault_rdregIllegal, fun w s hop h3 h4 => ?_, fun i s t ht hcode => ?_⟩
  · rw [eq_packCmd_of_op hop, decode_packCmd_rdregIllegal _ (cmdFc w) _ _ h3 h4]
    exact entersFault_rdregIllegal _ _ _ _ s
  · rcases exec_code_cases ht with h0 | ⟨-, hi⟩ | ⟨h2, -⟩
    · exact absurd (hcode.symm.trans h0) (by decide)
    · exact hi
    · exact absurd (hcode.symm.trans h2) (by decide)

/-- The three reserved values of `op` (`30_encoding.md` R54). -/
theorem reserved_op_cases : ∀ op : BitVec 3, 5 ≤ op.toNat → op = 5#3 ∨ op = 6#3 ∨ op = 7#3 := by decide

/-- Settles O27: a word with a reserved `op` decodes to that `op`'s command, which takes the exception; code 2 is
written by no other command. -/
theorem reservedOpRaisesIllegalCommand : Obligations.ReservedOpRaisesIllegalCommand := by
  refine ⟨fun addr fc a b s => ⟨entersFault_reserved5 addr fc a b s, entersFault_reserved6 addr fc a b s,
    entersFault_reserved7 addr fc a b s⟩, fun w s hop => ?_, fun i s t ht hcode => ?_⟩
  · rcases reserved_op_cases _ hop with h | h | h
    · rw [eq_packCmd_of_op h, decode_packCmd_reserved5]
      exact entersFault_reserved5 _ _ _ _ s
    · rw [eq_packCmd_of_op h, decode_packCmd_reserved6]
      exact entersFault_reserved6 _ _ _ _ s
    · rw [eq_packCmd_of_op h, decode_packCmd_reserved7]
      exact entersFault_reserved7 _ _ _ _ s
  · rcases exec_code_cases ht with h0 | ⟨h1, -⟩ | ⟨-, hi⟩
    · exact absurd (hcode.symm.trans h0) (by decide)
    · exact absurd (hcode.symm.trans h1) (by decide)
    · exact hi

/-! ## Ignored fields -/

/-- The body stands in the buffer from byte 0 on (`41_frame_builder.md` R80). -/
theorem fbRead_builtMemory_body (body : List Byte) (hfit : body.length + 2 ≤ 8) (i : Fin 8) (hi : i.val < body.length) :
    fbRead (builtMemory body) i = body[i.val] := by
  rw [builtMemory, fbRead_memWrite _ _ _ i (memWrite_wf _ _ _ fbClear_wf) (by simpa using hfit), if_neg (by omega),
    fbRead_memWrite _ _ _ i fbClear_wf (by omega), if_pos (Nat.zero_le _), Nat.sub_zero, List.getElem?_eq_getElem hi,
    Option.getD_some]

/-- Byte 1 of the frame WSR builds is the function code 6, whatever the `fc` field holds (`41_frame_builder.md` R85). -/
theorem exec_wsr_functionCode (addr fc : Byte) (reg value : Word) (s : State) :
    ∃ t, exec (.wsr addr fc reg value) s = .next t ∧ fbRead t.fb 1 = 0x06#8 := by
  refine ⟨_, rfl, ?_⟩
  change fbRead (buildFrame 8 (regBody addr Config.fcWsr reg value) rlenWrite s.toBlock).fb 1 = _
  rw [buildFrame_regBody]
  exact fbRead_builtMemory_body (regBody addr Config.fcWsr reg value) (Nat.le_refl 8) 1 (by simp)

/-- Zero extension is eight zeros above the byte (`00_scope.md` R8). -/
theorem zext16_eq_append (byte : Byte) : zext16 byte = 0x00#8 ++ byte :=
  BitVec.setWidth_eq_append (by omega)

/-- Settles O8: the meaning of a command does not mention its ignored fields, WSR writes its own function code, and the
assembler packs the words it is said to pack. -/
theorem ignoredFieldsChangeNothing : Obligations.IgnoredFieldsChangeNothing := by
  refine ⟨fun _ _ _ _ _ _ => rfl, fun _ _ _ _ _ _ _ => rfl, fun _ _ _ _ _ _ _ _ _ => rfl,
    fun _ _ _ _ _ _ _ _ _ _ => rfl, fun _ _ _ _ _ _ _ _ _ => ⟨rfl, rfl, rfl⟩, exec_wsr_functionCode,
    fun addr reg value => fieldsAre_packCmd _ _ _ _ _, fun addr fc => fieldsAre_packCmd _ _ _ _ _,
    fieldsAre_packCmd _ _ _ _ _, fun byte => ?_⟩
  rw [← zext16_eq_append]
  exact fieldsAre_packCmd _ _ _ _ _

end Sys2Proof.Machine
end

section
/-! SUPPORT. The checksum engine family (`40_crc_engine.md`): the register bit by bit and byte by byte (R62 to R64), the
trailer and the check of a buffer (R65, R66, R72), the table form and the one-bit form (R70, R73), and the streaming
commands (R67 to R69). -/

namespace Sys2Proof.Machine

/-! ## Streaming -/

section
variable (addr fc : Byte) (a : Word)

/-- What CRC.INIT does (`40_crc_engine.md` R67). -/
theorem exec_crcInit (b : Word) (s : State) :
    exec (.crcInit addr fc a b) s = .next ⟨completeOk { s.toBlock with crc := 0xFFFF#16 }, s.script⟩ := rfl

/-- What CRC.UPD does (`40_crc_engine.md` R68). -/
theorem exec_crcUpd (bHi byte : Byte) (s : State) :
    exec (.crcUpd addr fc a bHi byte) s =
      .next ⟨completeOk { s.toBlock with crc := bytestep s.crc byte }, s.script⟩ := rfl

end

/-- A word with `op` = 3 presets the register, whatever its other fields hold. -/
theorem exec_decode_of_op_three {w : CmdWord} (h : cmdOp w = 3#3) (s : State) :
    exec (decode w) s = .next ⟨completeOk { s.toBlock with crc := 0xFFFF#16 }, s.script⟩ := by
  rw [eq_packCmd_of_op h, decode_packCmd_crcInit, exec_crcInit]

/-- A word with `op` = 4 absorbs its lowest byte, whatever its other fields hold. -/
theorem exec_decode_of_op_four {w : CmdWord} (h : cmdOp w = 4#3) (s : State) :
    exec (decode w) s =
      .next ⟨completeOk { s.toBlock with crc := bytestep s.crc (w.extractLsb' 0 8) }, s.script⟩ := by
  have hbyte : (cmdB w).extractLsb' 0 8 = w.extractLsb' 0 8 := BitVec.extractLsb'_extractLsb'_of_le (by decide)
  rw [← hbyte, eq_packCmd_of_op h, decode_packCmd_crcUpd, exec_crcUpd, cmdB_packCmd]

/-- An idle block runs the command its host presents (`20_memory.md` R39). -/
theorem step_command_of_idle {b : Block} (h : b.phase = .idle) (w : CmdWord) (rest : List HostAction) :
    step ⟨b, .command w :: rest⟩ = exec (decode w) ⟨b, rest⟩ := by
  simp [step, busy_of_idle h]

/-- A run of CRC.UPD commands absorbs their bytes in order, and does nothing else: each one leaves an idle block whose
code is 0 (`40_crc_engine.md` R69). -/
theorem run_crcUpds (ws : List CmdWord) (rest : List HostAction) (hws : ∀ x ∈ ws, cmdOp x = 4#3) (b : Block)
    (hidle : b.phase = .idle) :
    Sys2Proof.core.run ws.length ⟨completeOk b, ws.map .command ++ rest⟩ =
      .next ⟨completeOk { b with crc := absorb b.crc (ws.map fun x => x.extractLsb' 0 8) }, rest⟩ := by
  induction ws generalizing b with
  | nil => rfl
  | cons x xs ih =>
    have hstep : step ⟨completeOk b, (x :: xs).map .command ++ rest⟩ =
        .next ⟨completeOk { b with crc := bytestep b.crc (x.extractLsb' 0 8) }, xs.map .command ++ rest⟩ :=
      (step_command_of_idle (b := completeOk b) hidle x _).trans (exec_decode_of_op_four (hws x List.mem_cons_self) _)
    exact (run_succ _ _ _ hstep).trans (ih (fun y hy => hws y (List.mem_cons_of_mem x hy)) _ hidle)

/-- Settles O41: CRC.INIT leaves the preset register, the run of CRC.UPD absorbs the message from there, and the ports
of the idle block that is left show the register. -/
theorem streamedMessageChecksum : Obligations.StreamedMessageChecksum := by
  intro s w ws rest hidle hw hws
  have hinit : step ⟨s.toBlock, .command w :: (ws.map .command ++ rest)⟩ =
      .next ⟨completeOk { s.toBlock with crc := 0xFFFF#16 }, ws.map .command ++ rest⟩ :=
    (step_command_of_idle hidle w _).trans (exec_decode_of_op_three hw _)
  obtain ⟨-, hlo, hhi, -⟩ := outputPortsOfIdleBlock
    { s.toBlock with crc := crc16 (ws.map fun x => x.extractLsb' 0 8), code := 0#2 } hidle
  exact ⟨_, (run_succ _ _ _ hinit).trans (run_crcUpds ws rest hws _ hidle), rfl, hlo, hhi⟩

/-! ## A byte in the low half of a word -/

theorem getLsbD_zext16 (b : Byte) {i : Nat} (hi : i < 16) : (zext16 b).getLsbD i = b.getLsbD i :=
  (BitVec.getLsbD_setWidth 16 b i).trans (by rw [decide_eq_true hi, Bool.true_and])

theorem zext16_xor (x y : Byte) : zext16 (x ^^^ y) = zext16 x ^^^ zext16 y := BitVec.setWidth_xor

theorem zext16_ushiftRight (b : Byte) (n : Nat) : zext16 b >>> n = zext16 (b >>> n) := by
  refine BitVec.eq_of_getLsbD_eq fun i hi => ?_
  rw [getLsbD_zext16 _ hi, BitVec.getLsbD_ushiftRight, BitVec.getLsbD_ushiftRight]
  by_cases h16 : n + i < 16
  · exact getLsbD_zext16 b h16
  · rw [BitVec.getLsbD_of_ge _ _ (by omega), BitVec.getLsbD_of_ge _ _ (by omega)]

/-- A word is its high byte in place and its low byte. -/
theorem shiftLeft_hi_xor_zext16_lo (c : Word) : (c >>> 8) <<< 8 ^^^ zext16 (lo8 c) = c := by
  refine BitVec.eq_of_getLsbD_eq fun i hi => ?_
  have hlo : (zext16 (lo8 c)).getLsbD i = (decide (i < 8) && c.getLsbD (0 + i)) :=
    (getLsbD_zext16 _ hi).trans (BitVec.getLsbD_extractLsb' 0 8 c i)
  rw [BitVec.getLsbD_xor, hlo]
  by_cases h8 : i < 8
  · simp [h8]
  · simp [h8, hi, Nat.add_sub_cancel' (Nat.le_of_not_lt h8)]

/-! ## One bit step -/

/-- When the bit shifted out is 0, `bitstep` only shifts. -/
theorem bitstep_of_even {c : Word} (h : c.getLsbD 0 = false) : bitstep c = c >>> 1 :=
  if_neg (by rw [h]; decide)

/-- When the bit shifted out is 1, POLY is XORed in after the shift. -/
theorem bitstep_of_odd {c : Word} (h : c.getLsbD 0 = true) : bitstep c = (c >>> 1) ^^^ Config.poly := if_pos h

/-- POLY inverts bits 0, 13 and 15. -/
theorem getLsbD_poly : ∀ i < 16, Config.poly.getLsbD i = (i == 0 || i == 13 || i == 15) := by decide

/-- Each bit of `bitstep`: the bit above it, inverted where POLY is set when the bit shifted out was 1
(`40_crc_engine.md` R62). -/
theorem getLsbD_bitstep (c : Word) {i : Nat} (hi : i < 16) :
    (bitstep c).getLsbD i = (c.getLsbD (i + 1) ^^ (c.getLsbD 0 && (i == 0 || i == 13 || i == 15))) := by
  rw [← getLsbD_poly i hi, Nat.add_comm i 1, ← BitVec.getLsbD_ushiftRight]
  cases h : c.getLsbD 0 with
  | false => rw [bitstep_of_even h, Bool.false_and, Bool.xor_false]
  | true => rw [bitstep_of_odd h, Bool.true_and, BitVec.getLsbD_xor]

/-- Settles O11: every bit by `getLsbD_bitstep`, the examples by evaluation. -/
theorem bitstepBitByBit : Obligations.BitstepBitByBit :=
  ⟨fun c _ hi => getLsbD_bitstep c hi, by decide⟩

/-- `bitstep` is linear over XOR, since each bit of it is (`40_crc_engine.md` R71 (a)). -/
theorem bitstep_xor (x y : Word) : bitstep (x ^^^ y) = bitstep x ^^^ bitstep y := by
  refine BitVec.eq_of_getLsbD_eq fun i hi => ?_
  simp only [BitVec.getLsbD_xor, getLsbD_bitstep _ hi, Bool.and_xor_distrib_right, Bool.xor_assoc,
    Bool.xor_left_comm]

/-- The last of `n + 1` iterations, taken off. -/
theorem bitsteps_succ (n : Nat) (c : Word) : bitsteps (n + 1) c = bitstep (bitsteps n c) := by
  induction n generalizing c with
  | zero => rfl
  | succ n ih => exact ih (bitstep c)

/-- The iterations are linear over XOR, as each one is. -/
theorem bitsteps_xor (n : Nat) (x y : Word) : bitsteps n (x ^^^ y) = bitsteps n x ^^^ bitsteps n y := by
  induction n with
  | zero => rfl
  | succ n ih => rw [bitsteps_succ, ih, bitstep_xor, bitsteps_succ, bitsteps_succ]

/-- While the bits shifted out are 0, the iterations only shift. -/
theorem bitsteps_of_low_zero (n : Nat) (c : Word) (h : ∀ i < n, c.getLsbD i = false) : bitsteps n c = c >>> n := by
  induction n with
  | zero => exact (BitVec.ushiftRight_zero c).symm
  | succ n ih =>
    have hout : (c >>> n).getLsbD 0 = false := by rw [BitVec.getLsbD_ushiftRight, Nat.add_zero, h n n.lt_succ_self]
    rw [bitsteps_succ, ih fun i hi => h i (Nat.lt_succ_of_lt hi), bitstep_of_even hout, ← BitVec.shiftRight_add]

/-! ## One byte, and a message -/

/-- Absorbing a byte (`40_crc_engine.md` R63). -/
theorem bytestep_eq (c : Word) (b : Byte) : bytestep c b = bitsteps 8 (c ^^^ zext16 b) := rfl

/-- Settles O12: `bytestep` by its definition, the examples by evaluation. -/
theorem bytestepIsXorThenEightBitsteps : Obligations.BytestepIsXorThenEightBitsteps := by
  refine ⟨fun c b => ?_, by decide⟩
  rw [← zext16_eq_append]
  exact bytestep_eq c b

/-- One more byte at the end of a message is one more `bytestep` (`40_crc_engine.md` R64). -/
theorem crc16_concat (m : List Byte) (b : Byte) : crc16 (m ++ [b]) = bytestep (crc16 m) b := List.foldl_concat ..

/-- The register after the first five bytes of the polling frame of R64's example, byte by byte. -/
theorem crc16_pollingPrefix : crc16 [0x01#8, 0x04#8, 0x00#8, 0x00#8, 0x00#8] = 0xF018#16 := by
  obtain ⟨-, haddr, hfc, -⟩ := bytestepIsXorThenEightBitsteps
  have hzeros : bytestep 0xE301#16 0x00#8 = 0xC022#16 ∧ bytestep 0xC022#16 0x00#8 = 0x1940#16 ∧
      bytestep 0x1940#16 0x00#8 = 0xF018#16 := by decide
  simp only [crc16, absorb, Config.crcInit, List.foldl_cons, List.foldl_nil, haddr, hfc, hzeros]

/-- The checksum of the polling frame's body with the low byte of its count left open. -/
theorem crc16_polling (b : Byte) :
    crc16 [0x01#8, 0x04#8, 0x00#8, 0x00#8, 0x00#8, b] = bytestep 0xF018#16 b :=
  (crc16_concat [0x01#8, 0x04#8, 0x00#8, 0x00#8, 0x00#8] b).trans (congrArg (bytestep · b) crc16_pollingPrefix)

/-- Settles O13: the loop starts at CRC_INIT and takes the bytes in order. -/
theorem crcOfMessageByteByByte : Obligations.CrcOfMessageByteByByte :=
  ⟨rfl, crc16_concat, (crc16_polling 0x0A#8).trans (by decide)⟩

/-! ## The trailer and the check of a buffer -/

/-- The trailer of a buffer is taken over all but its last two bytes, which are not read (`40_crc_engine.md` R65). -/
theorem crcTrailer_append_pair (body : List Byte) (x y : Byte) :
    crcTrailer (body ++ [x, y]) = some (lo8 (crc16 body), hi8 (crc16 body)) := by
  simp [crcTrailer]

/-- A buffer verifies exactly when its last two bytes are its trailer (`40_crc_engine.md` R66). -/
theorem crcCheck_append_pair (body : List Byte) (x y : Byte) :
    crcCheck (body ++ [x, y]) = some (decide (x = lo8 (crc16 body) ∧ y = hi8 (crc16 body))) := by
  simp [crcCheck, crcTrailer_append_pair, Bool.decide_and, beq_eq_decide]

/-- A buffer of length 0 or 1 has no trailer (`40_crc_engine.md` R72). -/
theorem crcTrailer_of_short {buf : List Byte} (h : buf.length < 2) : crcTrailer buf = none := if_pos h

/-- A buffer of length 0 or 1 is refused by the check (`40_crc_engine.md` R72). -/
theorem crcCheck_of_short {buf : List Byte} (h : buf.length < 2) : crcCheck buf = none := by
  rw [crcCheck, crcTrailer_of_short h]

/-- The check of a whole polling frame. -/
theorem crcCheck_polling (b x y : Byte) :
    crcCheck [0x01#8, 0x04#8, 0x00#8, 0x00#8, 0x00#8, b, x, y] =
      some (decide (x = lo8 (bytestep 0xF018#16 b) ∧ y = hi8 (bytestep 0xF018#16 b))) := by
  rw [← crc16_polling]
  exact crcCheck_append_pair [0x01#8, 0x04#8, 0x00#8, 0x00#8, 0x00#8, b] x y

/-- Settles O14: the buffers of two bytes or more, the shorter ones, and the rule's three polling frames. -/
theorem trailerAndCheckOfBuffer : Obligations.TrailerAndCheckOfBuffer :=
  ⟨fun body x y => ⟨crcTrailer_append_pair body x y, crcCheck_append_pair body x y⟩,
    fun _ h => ⟨crcTrailer_of_short h, crcCheck_of_short h⟩, (crcCheck_polling _ _ _).trans (by decide),
    (crcCheck_polling _ _ _).trans (by decide), (crcCheck_polling _ _ _).trans (by decide)⟩

/-! ## The table form -/

/-- `bytestep` of a register and a byte is the register's high byte, shifted down, and the table entry of what stands in
the low byte after the XOR (`40_crc_engine.md` R70). -/
theorem bytestep_eq_table (c : Word) (b : Byte) : bytestep c b = (c >>> 8) ^^^ bytestep 0x0000#16 (lo8 c ^^^ b) := by
  have hsplit : c ^^^ zext16 b = (c >>> 8) <<< 8 ^^^ (0x0000#16 ^^^ zext16 (lo8 c ^^^ b)) := by
    rw [BitVec.zero_xor, zext16_xor, ← BitVec.xor_assoc, shiftLeft_hi_xor_zext16_lo]
  have hhigh : bitsteps 8 ((c >>> 8) <<< 8) = c >>> 8 := by
    rw [bitsteps_of_low_zero 8 _ fun i hi => by simp [hi]]
    refine BitVec.eq_of_getLsbD_eq fun i _ => ?_
    simpa using BitVec.lt_of_getLsbD
  rw [bytestep_eq, hsplit, bitsteps_xor, hhigh, bytestep_eq]

/-- `a * b` indices, row by row. -/
theorem range_mul (a b : Nat) :
    List.range (a * b) = (List.range a).flatMap fun k => (List.range b).map (b * k + ·) := by
  induction a with
  | zero => rw [Nat.zero_mul, List.range_zero, List.flatMap_nil]
  | succ a ih =>
    rw [Nat.succ_mul, List.range_add, ih, List.range_succ, List.flatMap_append, List.flatMap_singleton, Nat.mul_comm a b]

/-- An entry of the table is the index through the iterations (`40_crc_engine.md` R70). -/
theorem crcTableEntry_eq (x : Byte) : crcTableEntry x = bitsteps 8 (zext16 x) :=
  congrArg (bitsteps 8) BitVec.zero_xor

/-- The entries of the table are linear over XOR, as the iterations are. -/
theorem crcTableEntry_xor (x y : Byte) : crcTableEntry (x ^^^ y) = crcTableEntry x ^^^ crcTableEntry y := by
  rw [crcTableEntry_eq, zext16_xor, bitsteps_xor, ← crcTableEntry_eq, ← crcTableEntry_eq]

/-- In the index of entry `i` of row `k` the row and the place in it have no bit in common. -/
theorem tableIndex_eq_xor :
    ∀ k < 8, ∀ i < 32, BitVec.ofNat 8 (32 * k + i) = BitVec.ofNat 8 (32 * k) ^^^ BitVec.ofNat 8 i := by
  decide

/-- The first printed row, recomputed. -/
theorem map_crcTableEntry_firstRow :
    (List.range 32).map (fun i => crcTableEntry (BitVec.ofNat 8 i)) = printedTable0 := by
  decide

/-- Row `k`, recomputed, is the first printed row XORed with the row's first entry. -/
theorem map_crcTableEntry_row {k : Nat} (hk : k < 8) :
    (List.range 32).map (fun i => crcTableEntry (BitVec.ofNat 8 (32 * k + i))) =
      printedTable0.map (crcTableEntry (BitVec.ofNat 8 (32 * k)) ^^^ ·) := by
  rw [← map_crcTableEntry_firstRow, List.map_map]
  refine List.map_congr_left fun i hi => ?_
  rw [tableIndex_eq_xor k hk i (List.mem_range.mp hi), crcTableEntry_xor]
  rfl

/-- The first entries of the rows, recomputed. -/
theorem map_crcTableEntry_rowHeads :
    (List.range 8).map (fun k => crcTableEntry (BitVec.ofNat 8 (32 * k))) =
      [0x0000#16, 0xD801#16, 0xF001#16, 0x2800#16, 0xA001#16, 0x7800#16, 0x5000#16, 0x8801#16] := by
  decide

/-- The printed rows are the first one XORed with their first entries. -/
theorem printedRows_eq_firstRow_xor :
    [0x0000#16, 0xD801#16, 0xF001#16, 0x2800#16, 0xA001#16, 0x7800#16, 0x5000#16, 0x8801#16].map
        (fun h => printedTable0.map (h ^^^ ·)) =
      [printedTable0, printedTable1, printedTable2, printedTable3, printedTable4, printedTable5, printedTable6,
        printedTable7] := by
  decide

/-- The table recomputed from `bytestep` is the printed one (`40_crc_engine.md` R70). -/
theorem table_eq_printed : (List.range 256).map (fun i => crcTableEntry (BitVec.ofNat 8 i)) = printedTable := by
  calc (List.range 256).map (fun i => crcTableEntry (BitVec.ofNat 8 i))
    _ = (List.range 8).flatMap fun k => (List.range 32).map fun i => crcTableEntry (BitVec.ofNat 8 (32 * k + i)) := by
      simp only [range_mul 8 32, List.map_flatMap, List.map_map, Function.comp_def]
    _ = (List.range 8).flatMap fun k => printedTable0.map (crcTableEntry (BitVec.ofNat 8 (32 * k)) ^^^ ·) :=
      List.flatMap_congr fun k hk => map_crcTableEntry_row (List.mem_range.mp hk)
    _ = (((List.range 8).map fun k => crcTableEntry (BitVec.ofNat 8 (32 * k))).map
          fun h => printedTable0.map (h ^^^ ·)).flatten := by
      rw [List.map_map, List.flatMap_def, Function.comp_def]
    _ = printedTable := by
      rw [map_crcTableEntry_rowHeads, printedRows_eq_firstRow_xor]
      simp only [List.flatten_cons, List.flatten_nil, List.append_nil, printedTable, List.append_assoc]

/-- Settles O15: the split of the register, and the table row by row. -/
theorem tableFormEqualsBytestep : Obligations.TableFormEqualsBytestep := ⟨bytestep_eq_table, table_eq_printed⟩

/-! ## One data bit per step -/

/-- When the register's lowest bit and the message bit are equal, the one-bit form only shifts. -/
theorem serialbit_of_equal {c : Word} {d : Bool} (h : (c.getLsbD 0 ^^ d) = false) : serialbit c d = c >>> 1 :=
  if_neg (by rw [h]; decide)

/-- When they differ, POLY is XORed in after the shift. -/
theorem serialbit_of_different {c : Word} {d : Bool} (h : (c.getLsbD 0 ^^ d) = true) :
    serialbit c d = (c >>> 1) ^^^ Config.poly := if_pos h

/-- A register with a byte XORed in takes one bit step as the one-bit form does with the byte's lowest bit, and the rest
of the byte is still to come. -/
theorem bitstep_xor_zext16 (c : Word) (b : Byte) :
    bitstep (c ^^^ zext16 b) = serialbit c (b.getLsbD 0) ^^^ zext16 (b >>> 1) := by
  have hbit : (c ^^^ zext16 b).getLsbD 0 = (c.getLsbD 0 ^^ b.getLsbD 0) := by
    rw [BitVec.getLsbD_xor, getLsbD_zext16 b (by decide)]
  have hshift : (c ^^^ zext16 b) >>> 1 = c >>> 1 ^^^ zext16 (b >>> 1) := by
    rw [BitVec.ushiftRight_xor_distrib, zext16_ushiftRight]
  cases h : c.getLsbD 0 ^^ b.getLsbD 0 with
  | false => rw [bitstep_of_even (hbit.trans h), hshift, serialbit_of_equal h]
  | true => rw [bitstep_of_odd (hbit.trans h), hshift, serialbit_of_different h, BitVec.xor_assoc,
      BitVec.xor_comm _ Config.poly, BitVec.xor_assoc]

/-- `n` bit steps after the XOR are `n` steps of the one-bit form, with the rest of the byte still to come. -/
theorem bitsteps_xor_zext16 (n : Nat) (c : Word) (b : Byte) :
    bitsteps n (c ^^^ zext16 b) =
      (List.range n).foldl (fun c i => serialbit c (b.getLsbD i)) c ^^^ zext16 (b >>> n) := by
  induction n with
  | zero => rw [BitVec.ushiftRight_zero]; rfl
  | succ n ih =>
    rw [bitsteps_succ, ih, bitstep_xor_zext16, BitVec.getLsbD_ushiftRight, Nat.add_zero, ← BitVec.shiftRight_add,
      List.range_succ, List.foldl_concat]

/-- After eight steps nothing of the byte is left (`40_crc_engine.md` R73). -/
theorem bytestep_eq_serialbyte (c : Word) (b : Byte) : bytestep c b = serialbyte c b := by
  rw [bytestep_eq, bitsteps_xor_zext16, BitVec.ushiftRight_eq_zero (Nat.le_refl 8)]
  exact BitVec.xor_zero

/-- Settles O16: `serialbyte` written out is eight steps of the one-bit form. -/
theorem serialBitFormEqualsBytestep : Obligations.SerialBitFormEqualsBytestep := bytestep_eq_serialbyte

/-! ## The streaming commands -/

/-- Settles O29: CRC.INIT as `exec_crcInit` says it, from every state and for every value of its ignored fields. -/
theorem crcInitSetsRegister : Obligations.CrcInitSetsRegister := exec_crcInit

/-- The byte of an assembled CRC.UPD stands in the lowest byte of its word (`30_encoding.md` R57). -/
theorem exec_assembled_crcUpd (byte : Byte) (s : State) :
    exec (decode (assemble (.crcUpd byte))) s =
      .next ⟨completeOk { s.toBlock with crc := bytestep s.crc byte }, s.script⟩ := by
  rw [assemble, decode_packCmd_crcUpd, exec_crcUpd, zext16_eq_append, BitVec.extractLsb'_append_eq_right]

/-- Settles O30: CRC.UPD absorbs its byte, and the two examples of `bytestep`. -/
theorem crcUpdAbsorbsByte : Obligations.CrcUpdAbsorbsByte := by
  obtain ⟨-, hpreset, hsecond, -⟩ := bytestepIsXorThenEightBitsteps
  exact ⟨exec_crcUpd, fun s =>
    ⟨fun hcrc => ⟨_, exec_assembled_crcUpd 0x01#8 s, (congrArg (bytestep · 0x01#8) hcrc).trans hpreset⟩,
      fun hcrc => ⟨_, exec_assembled_crcUpd 0x04#8 s, (congrArg (bytestep · 0x04#8) hcrc).trans hsecond⟩⟩⟩

end Sys2Proof.Machine
end

section
/-! SUPPORT. The frame builder family (`41_frame_builder.md`): the checksum of a message with one bit flipped
(`40_crc_engine.md` R71), the frame a builder leaves and its verification (R92), and the commands one by one (R82, R83, R85
to R88). -/

namespace Sys2Proof.Machine

/-! ## No two registers merge (`40_crc_engine.md` R71 (b)) -/

/-- `bitstep` shifts a 0 into bit 15, so that bit tells whether POLY went in. -/
theorem getLsbD_last_bitstep (c : Word) : (bitstep c).getLsbD 15 = c.getLsbD 0 := by
  rw [getLsbD_bitstep c (by decide), BitVec.getLsbD_of_ge c 16 (by decide)]
  simp

theorem bitstep_injective : Function.Injective bitstep := by
  intro x y h
  have hout : x.getLsbD 0 = y.getLsbD 0 := by rw [← getLsbD_last_bitstep, h, getLsbD_last_bitstep]
  refine BitVec.eq_of_getLsbD_eq fun i hi => ?_
  cases i with
  | zero => exact hout
  | succ i =>
    have hbit := congrArg (·.getLsbD i) h
    simp only [getLsbD_bitstep _ (Nat.lt_of_succ_lt hi), hout] at hbit
    exact Bool.xor_left_inj.mp hbit

theorem bitsteps_injective (n : Nat) : Function.Injective (bitsteps n) := by
  induction n with
  | zero => exact Function.injective_id
  | succ n ih => exact ih.comp bitstep_injective

/-- Different registers absorb the same byte to different registers. -/
theorem bytestep_injective_register (b : Byte) : Function.Injective (bytestep · b) := fun _ _ h =>
  (BitVec.xor_left_inj _).mp (bitsteps_injective 8 h)

/-- One register absorbs different bytes to different registers. -/
theorem bytestep_injective_byte (c : Word) : Function.Injective (bytestep c) := by
  intro x y h
  have hext : zext16 x = zext16 y := (BitVec.xor_right_inj _).mp (bitsteps_injective 8 h)
  refine BitVec.eq_of_getLsbD_eq fun i hi => ?_
  rw [← getLsbD_zext16 x (by omega), hext, getLsbD_zext16 y (by omega)]

theorem absorb_cons (c : Word) (b : Byte) (m : List Byte) : absorb c (b :: m) = absorb (bytestep c b) m := rfl

/-- A difference in the register is still there after any message. -/
theorem absorb_injective (m : List Byte) : Function.Injective (absorb · m) := by
  induction m with
  | nil => exact Function.injective_id
  | cons b m ih => exact ih.comp (bytestep_injective_register b)

/-! ## One flipped bit -/

/-- A flipped bit changes its byte. -/
theorem xor_bit_ne_self (b : Byte) {k : Nat} (hk : k < 8) : b ^^^ (1#8 <<< k) ≠ b := by
  have hbit : ∀ k < 8, 1#8 <<< k ≠ 0x00#8 := by decide
  exact fun h => hbit k hk ((BitVec.xor_right_inj _).mp (h.trans BitVec.xor_zero.symm))

theorem flipBit_cons_zero (b : Byte) (m : List Byte) (k : Nat) :
    flipBit (b :: m) 0 k = (b ^^^ (1#8 <<< k)) :: m := List.modify_zero_cons ..

theorem flipBit_cons_succ (b : Byte) (m : List Byte) (j k : Nat) :
    flipBit (b :: m) (j + 1) k = b :: flipBit m j k := List.modify_succ_cons ..

/-- A bit of the first part is flipped there. -/
theorem flipBit_append_left {m : List Byte} {j : Nat} (hj : j < m.length) (m' : List Byte) (k : Nat) :
    flipBit (m ++ m') j k = flipBit m j k ++ m' := by
  induction m generalizing j with
  | nil => exact absurd hj (Nat.not_lt_zero j)
  | cons b m ih =>
    cases j with
    | zero => rfl
    | succ j =>
      rw [List.cons_append, flipBit_cons_succ, ih (Nat.lt_of_succ_lt_succ hj), flipBit_cons_succ, List.cons_append]

/-- A bit of the second part is flipped there. -/
theorem flipBit_append_right (m m' : List Byte) (j k : Nat) :
    flipBit (m ++ m') (m.length + j) k = m ++ flipBit m' j k := by
  induction m with
  | nil => rw [List.length_nil, Nat.zero_add, List.nil_append, List.nil_append]
  | cons b m ih => rw [List.length_cons, Nat.add_right_comm, List.cons_append, flipBit_cons_succ, ih, List.cons_append]

/-- From every start value, two messages that differ in one bit are absorbed to different registers: the bit makes a
difference where it stands, and no later byte takes it back. -/
theorem absorb_flipBit_ne (c : Word) {m : List Byte} {j k : Nat} (hj : j < m.length) (hk : k < 8) :
    absorb c (flipBit m j k) ≠ absorb c m := by
  induction m generalizing c j with
  | nil => exact absurd hj (Nat.not_lt_zero j)
  | cons b m ih =>
    cases j with
    | zero =>
      rw [flipBit_cons_zero, absorb_cons, absorb_cons]
      exact fun h => xor_bit_ne_self b hk (bytestep_injective_byte c (absorb_injective m h))
    | succ j =>
      rw [flipBit_cons_succ, absorb_cons, absorb_cons]
      exact ih _ (Nat.lt_of_succ_lt_succ hj)

/-- Two messages that differ in one bit have different checksums (`40_crc_engine.md` R71 (d)). -/
theorem crc16_flipBit_ne {m : List Byte} {j k : Nat} (hj : j < m.length) (hk : k < 8) :
    crc16 (flipBit m j k) ≠ crc16 m := absorb_flipBit_ne _ hj hk

/-! ## Verification of a built frame -/

/-- A word is its high byte above its low byte. -/
theorem hi8_append_lo8 (c : Word) : hi8 c ++ lo8 c = c :=
  (BitVec.extractLsb'_append_extractLsb'_eq_extractLsb' (by decide)).trans BitVec.extractLsb'_eq_self

/-- Two bytes that are not the body's trailer do not verify (`40_crc_engine.md` R66). -/
theorem crcCheck_append_pair_of_not {body : List Byte} {x y : Byte}
    (h : ¬(x = lo8 (crc16 body) ∧ y = hi8 (crc16 body))) : crcCheck (body ++ [x, y]) = some false :=
  (crcCheck_append_pair body x y).trans (congrArg some (decide_eq_false h))

/-- A body does not verify with the trailer of another word than its checksum. -/
theorem crcCheck_append_le16_of_ne {body : List Byte} {c : Word} (h : crc16 body ≠ c) :
    crcCheck (body ++ le16 c) = some false :=
  crcCheck_append_pair_of_not fun ⟨hlo, hhi⟩ =>
    h (by rw [← hi8_append_lo8 (crc16 body), ← hlo, ← hhi, hi8_append_lo8])

/-- A body with its own trailer stops verifying when any one bit is changed: in the body the checksum moves away from the
trailer, in the trailer a byte moves away from the checksum (`41_frame_builder.md` R92). -/
theorem crcCheck_flipBit (body : List Byte) {j k : Nat} (hj : j < body.length + 2) (hk : k < 8) :
    crcCheck (flipBit (body ++ le16 (crc16 body)) j k) = some false := by
  rcases Nat.lt_or_ge j body.length with hbody | htrailer
  · rw [flipBit_append_left hbody]
    exact crcCheck_append_le16_of_ne (crc16_flipBit_ne hbody hk)
  · obtain ⟨i, rfl⟩ := Nat.exists_eq_add_of_le htrailer
    rw [flipBit_append_right]
    match i, Nat.lt_of_add_lt_add_left hj with
    | 0, _ => exact crcCheck_append_pair_of_not fun ⟨hlo, _⟩ => xor_bit_ne_self _ hk hlo
    | 1, _ => exact crcCheck_append_pair_of_not fun ⟨_, hhi⟩ => xor_bit_ne_self _ hk hhi

/-- Settles O33: the first `FLEN` bytes a builder leaves are a body and its own trailer. -/
theorem builtFrameVerifiesAndOneFlipFails : Obligations.BuiltFrameVerifiesAndOneFlipFails := by
  intro i s hb
  obtain ⟨body, rlen, hlen, hexec⟩ := exec_builds i hb
  have hflen : (BitVec.ofNat 4 (body.length + 2)).toNat = body.length + 2 :=
    (BitVec.toNat_ofNat _ _).trans (Nat.mod_eq_of_lt (by omega))
  refine ⟨_, hexec s, ?_⟩
  simp only [hflen, memRead_builtMemory body (by omega)]
  exact ⟨crcCheck_append_trailer body, fun j k hj hk => crcCheck_flipBit body hj hk⟩

/-! ## The frame a builder leaves -/

/-- The rest of the buffer past the frame, as a sequence (`10_state.md` R26 (I-b)). -/
theorem memRead_builtMemory_past (body : List Byte) (hfit : body.length + 2 ≤ 8) :
    memRead (builtMemory body) (body.length + 2) (6 - body.length) = List.replicate (6 - body.length) 0x00#8 := by
  refine List.ext_getElem? fun i => ?_
  by_cases hi : i < 6 - body.length
  · rw [getElem?_memRead _ _ _ i hi (by omega), fbRead_builtMemory_past body hfit _ (Nat.le_add_right _ i),
      List.getElem?_replicate_of_lt hi]
  · rw [List.getElem?_eq_none (by rw [length_memRead _ _ _ (by omega)]; omega),
      List.getElem?_eq_none (by rw [List.length_replicate]; omega)]

/-- All eight bytes of the buffer after building: the body, the trailer, zeros. -/
theorem fbBytes_builtMemory (body : List Byte) (hfit : body.length + 2 ≤ 8) :
    fbBytes (builtMemory body) = body ++ le16 (crc16 body) ++ List.replicate (6 - body.length) 0x00#8 := by
  have hall : fbBytes (builtMemory body) = memRead (builtMemory body) 0 (body.length + 2 + (6 - body.length)) :=
    (List.take_of_length_le (by rw [length_fbBytes]; omega)).symm
  rw [hall, memRead_append, memRead_builtMemory body hfit, Nat.zero_add,
    memRead_builtMemory_past body hfit]

/-- A command whose whole effect is to build a frame builds it in the sense of the statements (`41_frame_builder.md` R80). -/
theorem buildsFrame_of_buildFrame {i : Instr} {s : State} {n : Nat} {body : List Byte} {rlen : BitVec 18}
    (h : exec i s = completeWith s (buildFrame n body rlen)) (hn : n = body.length + 2) (hfit : n ≤ 8) :
    BuildsFrame i s body rlen.toNat := by
  subst hn
  refine ⟨builtMemory body, rlen, ?_, fbBytes_builtMemory body hfit, rfl⟩
  rw [h, completeWith_eq, buildFrame_eq body _ rlen s.toBlock rfl hfit]

/-- `RLEN` of a read never wraps (`41_frame_builder.md` R88). -/
theorem toNat_rlenRead (count : Word) : (rlenRead count).toNat = 5 + 2 * count.toNat := by
  have hcount := count.isLt
  exact (BitVec.toNat_ofNat _ _).trans (Nat.mod_eq_of_lt (by omega))

/-- What a built frame says of `RLEN`. -/
theorem exists_next_rlen_of_buildsFrame {i : Instr} {s : State} {body : List Byte} {n : Nat}
    (h : BuildsFrame i s body n) : ∃ t, exec i s = .next t ∧ t.rlen.toNat = n := by
  obtain ⟨_, _, hexec, -, hrlen⟩ := h
  exact ⟨_, hexec, hrlen⟩

/-- A built 8-byte frame with its checksum and lengths as numbers, the form of the rules' examples. -/
theorem exists_next_of_buildsFrame {i : Instr} {s : State} {body : List Byte} {c : Word} {rlen : BitVec 18}
    (h : BuildsFrame i s body rlen.toNat) (hlen : body.length = 6) (hcrc : crc16 body = c) :
    ∃ t, exec i s = .next t ∧ t.crc = c ∧ (List.finRange 8).map (fbRead t.fb) = body ++ le16 c ∧ t.flen = 8#4 ∧
      t.rlen = rlen := by
  subst hcrc
  obtain ⟨_, _, hexec, hfb, hrlen⟩ := h
  refine ⟨_, hexec, rfl, ?_, by rw [hlen], BitVec.eq_of_toNat_eq hrlen⟩
  rw [hlen] at hfb
  exact hfb.trans (List.append_nil _)

/-! ## The commands -/

section
variable (addr fc : Byte) (a b : Word) (s : State)

theorem buildsFrame_rdh : BuildsFrame (.rdh addr a b) s (regBody addr 0x03#8 a b) (5 + 2 * b.toNat) :=
  toNat_rlenRead b ▸ buildsFrame_of_buildFrame rfl rfl (Nat.le_refl 8)

theorem buildsFrame_rdi : BuildsFrame (.rdi addr a b) s (regBody addr 0x04#8 a b) (5 + 2 * b.toNat) :=
  toNat_rlenRead b ▸ buildsFrame_of_buildFrame rfl rfl (Nat.le_refl 8)

/-- The `fc` field plays no part. -/
theorem buildsFrame_wsr : BuildsFrame (.wsr addr fc a b) s (regBody addr 0x06#8 a b) 8 :=
  buildsFrame_of_buildFrame (rlen := rlenWrite) rfl rfl (Nat.le_refl 8)

theorem buildsFrame_usr : BuildsFrame (.usr addr fc a b) s (usrBody Config.fcCal addr fc) 4 :=
  buildsFrame_of_buildFrame (rlen := rlenUser) rfl rfl (by decide)

/-- With the code FC_CAL the address is forced (`41_frame_builder.md` R86). -/
theorem usrBody_of_eq (fcCal : Byte) : usrBody fcCal addr fcCal = [0xF8#8, fcCal] :=
  congrArg (· :: [fcCal]) (if_pos rfl)

/-- With any other code the address is the operand (`41_frame_builder.md` R86). -/
theorem usrBody_of_ne {fcCal : Byte} (h : fc ≠ fcCal) : usrBody fcCal addr fc = [addr, fc] :=
  congrArg (· :: [fc]) (if_neg h)

/-- USR.CAL is a name of USR with the code FC_CAL (`41_frame_builder.md` R87). -/
theorem exec_usrCal_eq_usr : exec (.usrCal addr a b) s = exec (.usr addr Config.fcCal a b) s :=
  congrArg (fun body => completeWith s (buildFrame 4 body rlenUser)) (usrBody_of_eq addr Config.fcCal).symm

/-- USR.RST is a name of USR with the code FC_RST, which is not FC_CAL (`41_frame_builder.md` R87). -/
theorem exec_usrRst_eq_usr : exec (.usrRst addr a b) s = exec (.usr addr Config.fcRst a b) s :=
  congrArg (fun body => completeWith s (buildFrame 4 body rlenUser))
    (usrBody_of_ne addr Config.fcRst Config.fcRst_ne_fcCal).symm

theorem buildsFrame_usrCal : BuildsFrame (.usrCal addr a b) s [0xF8#8, Config.fcCal] 4 :=
  buildsFrame_of_buildFrame (rlen := rlenUser) rfl rfl (by decide)

theorem buildsFrame_usrRst : BuildsFrame (.usrRst addr a b) s [addr, Config.fcRst] 4 :=
  buildsFrame_of_buildFrame (rlen := rlenUser) rfl rfl (by decide)

end

/-! ## The rules' examples -/

/-- The checksums of the bodies of R82's and R85's examples and of R86's and R87's (USR.CAL, USR.RST), byte by byte. -/
theorem crc16_examples :
    crc16 [0x01#8, 0x03#8, 0x00#8, 0x01#8, 0x00#8, 0x02#8] = 0xCB95#16 ∧
    crc16 [0x01#8, 0x06#8, 0x00#8, 0x01#8, 0x59#8, 0xD8#8] = 0x00E2#16 ∧
    crc16 [0x10#8, 0x99#8] = 0x1ACC#16 ∧ crc16 [0xF8#8, 0x41#8] = 0x4082#16 ∧ crc16 [0x01#8, 0x42#8] = 0x1180#16 := by
  have hread : bytestep 0xFFFF#16 0x01#8 = 0x807E#16 ∧ bytestep 0x807E#16 0x03#8 = 0x2140#16 ∧
      bytestep 0x2140#16 0x00#8 = 0xF020#16 ∧ bytestep 0xF020#16 0x01#8 = 0x1830#16 ∧
      bytestep 0x1830#16 0x00#8 = 0x1418#16 ∧ bytestep 0x1418#16 0x02#8 = 0xCB95#16 := by decide
  have hwrite : bytestep 0x807E#16 0x06#8 = 0x2280#16 ∧ bytestep 0x2280#16 0x00#8 = 0xA023#16 ∧
      bytestep 0xA023#16 0x01#8 = 0x1920#16 ∧ bytestep 0x1920#16 0x59#8 = 0xE2D8#16 ∧
      bytestep 0xE2D8#16 0xD8#8 = 0x00E2#16 := by decide
  have huser : bytestep 0xFFFF#16 0x10#8 = 0x8CBE#16 ∧ bytestep 0x8CBE#16 0x99#8 = 0x1ACC#16 ∧
      bytestep 0xFFFF#16 0xF8#8 = 0xC2BE#16 ∧ bytestep 0xC2BE#16 0x41#8 = 0x4082#16 ∧
      bytestep 0x807E#16 0x42#8 = 0x1180#16 := by decide
  simp only [crc16, absorb, Config.crcInit, List.foldl_cons, List.foldl_nil, hread, hwrite, huser, and_self]

/-! ## The statements about the commands -/

/-- Settles O21: RDH's frame, and the checksum of the example. -/
theorem rdhBuildsReadHoldingFrame : Obligations.RdhBuildsReadHoldingFrame := by
  obtain ⟨hcrc, -⟩ := crc16_examples
  exact ⟨buildsFrame_rdh, fun s =>
    exists_next_of_buildsFrame (rlen := 9#18) (buildsFrame_rdh 0x01#8 0x0001#16 2#16 s) rfl hcrc⟩

/-- Settles O22: RDI's frame, and the checksum of the polling frame. -/
theorem rdiBuildsReadInputFrame : Obligations.RdiBuildsReadInputFrame := by
  obtain ⟨-, -, hcrc⟩ := crcOfMessageByteByByte
  exact ⟨buildsFrame_rdi, fun s =>
    exists_next_of_buildsFrame (rlen := 25#18) (buildsFrame_rdi 0x01#8 0x0000#16 10#16 s) rfl hcrc⟩

/-- Settles O23: WSR's frame, and the checksum of the example. -/
theorem wsrBuildsWriteFrame : Obligations.WsrBuildsWriteFrame := by
  obtain ⟨-, hcrc, -⟩ := crc16_examples
  exact ⟨buildsFrame_wsr, fun fc s =>
    exists_next_of_buildsFrame (rlen := 8#18) (buildsFrame_wsr 0x01#8 fc 0x0001#16 23000#16 s) rfl hcrc⟩

/-- Settles O24: USR's frame, and the example on a code that is not FC_CAL. -/
theorem usrBuildsUserFrame : Obligations.UsrBuildsUserFrame := by
  obtain ⟨-, -, hcrc, -⟩ := crc16_examples
  refine ⟨buildsFrame_usr, fun fcCal h => ?_⟩
  rw [usrBody_of_ne 0x10#8 0x99#8 h.symm, hcrc]
  rfl

/-- Settles O25: the named forms' frames, their equality with USR, and the frames under the suggested parameters. -/
theorem usrCalAndUsrRstFrames : Obligations.UsrCalAndUsrRstFrames := by
  obtain ⟨-, -, -, hcal, hrst⟩ := crc16_examples
  refine ⟨fun addr a b s => ⟨buildsFrame_usrCal addr a b s, buildsFrame_usrRst addr a b s,
    exec_usrCal_eq_usr addr a b s, exec_usrRst_eq_usr addr a b s⟩, ?_, fun addr => ?_⟩
  · rw [usrBody_of_ne 0x01#8 0x42#8 (by decide), hrst]
    rfl
  · rw [usrBody_of_eq, hcal]
    rfl

/-- Settles O32: `RLEN` is part of what the frames of the four commands say. -/
theorem responseLengthOfBuilder : Obligations.ResponseLengthOfBuilder := fun addr fc a b s =>
  ⟨exists_next_rlen_of_buildsFrame (buildsFrame_rdh addr a b s),
    exists_next_rlen_of_buildsFrame (buildsFrame_rdi addr a b s),
    exists_next_rlen_of_buildsFrame (buildsFrame_wsr addr fc a b s),
    exists_next_rlen_of_buildsFrame (buildsFrame_usr addr fc a b s)⟩

end Sys2Proof.Machine
end

section
/-! SUPPORT. The exceptions family (`60_exceptions.md`): what normal completion and fault entry leave of `STATUS` (R116,
R119), and that no command depends on what `STATUS` held (R124). -/

namespace Sys2Proof.Machine

/-! ## Normal completion -/

/-- Settles O37: the code and the flag in the builders' and the streaming commands' rows of the access matrix. -/
theorem normalCompletionWritesCodeZero : Obligations.NormalCompletionWritesCodeZero := by
  intro i s hnormal
  obtain ⟨f, hexec⟩ := exec_block i
  have ht : exec i s = .next ⟨f s.toBlock, s.script⟩ := hexec s
  refine ⟨_, ht, ?_⟩
  rcases hnormal with hb | hs
  · obtain ⟨hcode, heflag, -⟩ := exec_builds_access hb ht
    exact ⟨hcode, heflag⟩
  · obtain ⟨-, -, -, hcode, heflag, -⟩ := exec_streams_access hs ht
    exact ⟨hcode, heflag⟩

/-! ## After a fault -/

/-- An idle block with `FLEN` = 0 has nothing to send (`10_state.md` R22). -/
theorem transmit_eq_nil_of_flen_zero {s : Block} (hidle : s.phase = .idle) (hflen : s.flen = 0#4) : transmit s = [] := by
  rw [transmit_of_idle hidle, hflen]
  exact List.take_zero

/-- An idle block is ready for a command (`10_state.md` R22). -/
theorem cmdReady_of_idle {s : Block} (hidle : s.phase = .idle) : cmdReady s = true :=
  congrArg not (busy_of_idle hidle)

/-- Settles O28: fault entry leaves `FLEN` = 0 and the phase as it was, so an idle block stays idle with no frame. -/
theorem nothingToTransmitAfterFault : Obligations.NothingToTransmitAfterFault := by
  intro i s hb hs hidle
  obtain ⟨code, hcode, hexec⟩ := exec_faults i hb hs
  have hphase : (raise code s.toBlock).phase = .idle := (raise_phase code s.toBlock).trans hidle
  exact ⟨_, hexec s, fbRead_fbClear, rfl, rfl, hcode, rfl, rfl,
    transmit_eq_nil_of_flen_zero hphase (raise_flen code s.toBlock), cmdReady_of_idle hphase⟩

/-! ## Whatever `STATUS` holds -/

/-- Other contents of `STATUS` beforehand can show in `EFLAG` alone: a command that completes normally leaves the flag it
finds, a faulting one sets it. -/
theorem exec_with_status {i : Instr} {s t : State} (c : BitVec 2) (e : Bool) (ht : exec i s = .next t) :
    ∃ e', exec i { s with code := c, eflag := e } = .next { t with eflag := e' } ∧ (e = true → e' = true) := by
  cases hb : builds i with
  | true =>
    obtain ⟨body, rlen, -, hexec⟩ := exec_builds i hb
    obtain rfl := Host.Outcome.next.inj ((hexec s).symm.trans ht)
    exact ⟨e, hexec _, id⟩
  | false =>
    cases hs : streams i with
    | true =>
      obtain ⟨f, hexec⟩ := exec_streams i hs
      obtain rfl := Host.Outcome.next.inj ((hexec s).symm.trans ht)
      exact ⟨e, hexec _, id⟩
    | false =>
      obtain ⟨code, -, hexec⟩ := exec_faults i hb hs
      obtain rfl := Host.Outcome.next.inj ((hexec s).symm.trans ht)
      exact ⟨true, hexec _, fun _ => rfl⟩

/-- Settles O36: the two next states differ in `EFLAG` alone. -/
theorem commandProceedsWhateverStatus : Obligations.CommandProceedsWhateverStatus := by
  intro i s c e
  obtain ⟨f, hexec⟩ := exec_block i
  obtain ⟨e', hu, heflag⟩ := exec_with_status c e (hexec s)
  exact ⟨_, _, hexec s, hu, rfl, rfl, rfl, rfl, rfl, heflag⟩

end Sys2Proof.Machine
end

section
/-! SUPPORT. The reset family (`70_reset_and_hazards.md`): reset as a pin and as an action (R135, R107), and that nothing
else clears `EFLAG`. -/

namespace Sys2Proof.Machine

/-! ## The pin -/

/-- `RST` overrides the phase and the command port (`42_serial_sequencer.md` R107). -/
theorem clock_of_rst {p : Pins} (hrst : p.rst = true) (b : Block) : clock p b = Block.reset := if_pos hrst

/-! ## Without reset `EFLAG` stays set -/

/-- ACCEPT raises an exception or leaves the flag (`42_serial_sequencer.md` R101). -/
theorem microAccept_keeps_eflag (w : CmdWord) {b : Block} (h : b.eflag = true) : (microAccept w b).eflag = true := by
  simp only [microAccept, apply_ite Block.eflag, raise_eflag, completeOk_eflag, h, ite_self]

@[simp] theorem nextByte_eflag (b : Block) : (nextByte b).eflag = b.eflag := by
  simp only [nextByte, apply_ite Block.eflag, ite_self]

@[simp] theorem microShift_eflag (b : Block) : (microShift b).eflag = b.eflag := by
  simp only [microShift, apply_ite Block.eflag, completeOk_eflag, nextByte_eflag, ite_self]

/-- Every micro-step but ACCEPT leaves the flag as it is. -/
theorem clock_keeps_eflag {p : Pins} (hrst : p.rst = false) {b : Block} (h : b.eflag = true) :
    (clock p b).eflag = true := by
  rw [clock, hrst, if_neg Bool.false_ne_true]
  cases b.phase with
  | idle =>
    dsimp only
    split
    · exact microAccept_keeps_eflag p.cmd h
    · exact h
  | fill | xor | trailer => exact h
  | shift => exact (microShift_eflag b).trans h

/-- A command leaves the flag or, when it faults, sets it (`60_exceptions.md` R116, R119). -/
theorem exec_keeps_eflag {i : Instr} {s t : State} (ht : exec i s = .next t) (h : s.eflag = true) : t.eflag = true := by
  cases hb : builds i with
  | true =>
    obtain ⟨-, heflag, -⟩ := exec_builds_access hb ht
    exact heflag.trans h
  | false =>
    cases hs : streams i with
    | true =>
      obtain ⟨-, -, -, -, heflag, -⟩ := exec_streams_access hs ht
      exact heflag.trans h
    | false =>
      obtain ⟨-, -, -, -, heflag⟩ := exec_faults_access hb hs ht
      exact heflag

/-- A step that is no reset, by the action or by the pin, keeps a set flag (`70_reset_and_hazards.md` R135). -/
theorem step_reset_or_keeps_eflag {s t : State} (ht : step s = .next t) (h : s.eflag = true) :
    ((∃ rest, s.script = .reset :: rest) ∨ ∃ p rest, s.script = .clock p :: rest ∧ p.rst = true) ∨
      t.eflag = true := by
  rcases step_cases ht with ⟨-, rfl⟩ | ⟨rest, hscript, -⟩ | ⟨p, rest, hscript, rfl⟩ | ⟨_, _, -, -, rfl⟩ |
    ⟨_, _, -, -, hexec⟩
  · exact .inr (clock_keeps_eflag (p := .quiet) rfl h)
  · exact .inl (.inl ⟨rest, hscript⟩)
  · cases hrst : p.rst with
    | true => exact .inl (.inr ⟨p, rest, hscript, hrst⟩)
    | false => exact .inr (clock_keeps_eflag hrst h)
  · exact .inr (clock_keeps_eflag (p := .quiet) rfl h)
  · exact .inr (exec_keeps_eflag hexec h)

/-! ## The action -/

/-- The action RESET resets the block, whatever it was doing, and consumes itself (`70_reset_and_hazards.md` R135). -/
theorem step_reset {s : State} {rest : List HostAction} (hscript : s.script = .reset :: rest) :
    step s = .next ⟨Block.reset, rest⟩ := by
  rw [step, hscript]
  rfl

/-- Settles O2: reset by the pin and by the action, the cleared buffer, and the step that cannot have kept the flag. -/
theorem resetTakesPriority : Obligations.ResetTakesPriority := by
  refine ⟨fun b p hrst => clock_of_rst hrst b, fun s rest => step_reset, fbRead_fbClear, fun s t ht hset hclear => ?_⟩
  rcases step_reset_or_keeps_eflag ht hset with hreset | hkept
  · exact hreset
  · exact absurd (hclear.symm.trans hkept) Bool.false_ne_true

end Sys2Proof.Machine
end

section
/-! SUPPORT. The coding of commands (`30_encoding.md`): decoding and encoding undo each other (R52), the assembler's words
(R57) and the pseudo-instructions (R58). -/

namespace Sys2Proof.Machine

/-! ## Decode and encode -/

/-- The illegal form has an illegal function code (`30_encoding.md` R53). -/
theorem wellFormed_rdregIllegal_iff (addr fc : Byte) (a b : Word) :
    WellFormed (.rdregIllegal addr fc a b) = true ↔ fc ≠ 0x03#8 ∧ fc ≠ 0x04#8 :=
  Bool.and_eq_true_iff.trans (and_congr bne_iff_ne bne_iff_ne)

/-- The word of a well-formed command decodes to the command it names (`30_encoding.md` R52). -/
theorem decode_encode {i : Instr} (h : WellFormed i = true) : decode (encode i) = i.core := by
  cases i with
  | rdregIllegal addr fc a b =>
    obtain ⟨h3, h4⟩ := (wellFormed_rdregIllegal_iff addr fc a b).mp h
    exact decode_packCmd_rdregIllegal addr fc a b h3 h4
  | crcUpd addr fc a bHi byte =>
    exact (decode_packCmd_crcUpd addr fc a _).trans
      (congrArg₂ (Instr.crcUpd addr fc a) BitVec.extractLsb'_append_eq_left BitVec.extractLsb'_append_eq_right)
  | rdh addr start count => exact decode_packCmd_rdh addr start count
  | rdi addr start count => exact decode_packCmd_rdi addr start count
  | wsr addr fc reg value => exact decode_packCmd_wsr addr fc reg value
  | usr addr fc a b => exact decode_packCmd_usr addr fc a b
  | usrCal addr a b => exact decode_packCmd_usr addr Config.fcCal a b
  | usrRst addr a b => exact decode_packCmd_usr addr Config.fcRst a b
  | crcInit addr fc a b => exact decode_packCmd_crcInit addr fc a b
  | reserved5 addr fc a b => exact decode_packCmd_reserved5 addr fc a b
  | reserved6 addr fc a b => exact decode_packCmd_reserved6 addr fc a b
  | reserved7 addr fc a b => exact decode_packCmd_reserved7 addr fc a b

/-- Only the two named forms of USR do not name themselves (`41_frame_builder.md` R87). -/
theorem core_eq_self_or_named (i : Instr) :
    i.core = i ∨ (∃ addr a b, i = .usrCal addr a b) ∨ ∃ addr a b, i = .usrRst addr a b := by
  cases i with
  | usrCal addr a b => exact .inr (.inl ⟨addr, a, b, rfl⟩)
  | usrRst addr a b => exact .inr (.inr ⟨addr, a, b, rfl⟩)
  | rdh _ _ _ | rdi _ _ _ | rdregIllegal _ _ _ _ | wsr _ _ _ _ | usr _ _ _ _ | crcInit _ _ _ _ | crcUpd _ _ _ _ _
  | reserved5 _ _ _ _ | reserved6 _ _ _ _ | reserved7 _ _ _ _ => exact .inl rfl

/-- Settles O5: `decode_encode`, and which commands name themselves. -/
theorem decodeOfEncode : Obligations.DecodeOfEncode := fun i h => ⟨decode_encode h, core_eq_self_or_named i⟩

theorem op_cases : ∀ op : BitVec 3,
    op = 0#3 ∨ op = 1#3 ∨ op = 2#3 ∨ op = 3#3 ∨ op = 4#3 ∨ op = 5#3 ∨ op = 6#3 ∨ op = 7#3 := by decide

/-- A word of a command that names itself is the word of the command it decodes to. -/
theorem encode_decode_of_eq {w : CmdWord} {i : Instr} (hw : w = encode i) (hwf : WellFormed i = true) (hcore : i.core = i) :
    encode (decode w) = w ∧ WellFormed (decode w) = true ∧ (decode w).core = decode w := by
  have hdecode : decode w = i := (congrArg decode hw).trans ((decode_encode hwf).trans hcore)
  rw [hdecode]
  exact ⟨hw.symm, hwf, hcore⟩

/-- Settles O6: a word is packed from its fields, and for each `op` (and, for `op` = 0, each kind of `fc`) some command that
names itself is encoded by packing the same fields. -/
theorem encodeOfDecode : Obligations.EncodeOfDecode := by
  intro w
  rcases op_cases (cmdOp w) with h | h | h | h | h | h | h | h
  · by_cases h3 : cmdFc w = 0x03#8
    · exact encode_decode_of_eq (i := .rdh _ _ _) (eq_packCmd_of_fieldsAre ⟨h, rfl, h3, rfl, rfl⟩) rfl rfl
    · by_cases h4 : cmdFc w = 0x04#8
      · exact encode_decode_of_eq (i := .rdi _ _ _) (eq_packCmd_of_fieldsAre ⟨h, rfl, h4, rfl, rfl⟩) rfl rfl
      · exact encode_decode_of_eq (i := .rdregIllegal _ _ _ _) (eq_packCmd_of_op h)
          ((wellFormed_rdregIllegal_iff _ _ _ _).mpr ⟨h3, h4⟩) rfl
  · exact encode_decode_of_eq (i := .wsr _ _ _ _) (eq_packCmd_of_op h) rfl rfl
  · exact encode_decode_of_eq (i := .usr _ _ _ _) (eq_packCmd_of_op h) rfl rfl
  · exact encode_decode_of_eq (i := .crcInit _ _ _ _) (eq_packCmd_of_op h) rfl rfl
  · exact encode_decode_of_eq (i := .crcUpd _ _ _ (hi8 (cmdB w)) (lo8 (cmdB w)))
      ((eq_packCmd_of_op h).trans (congrArg (packCmd 4#3 _ _ _) (hi8_append_lo8 _).symm)) rfl rfl
  · exact encode_decode_of_eq (i := .reserved5 _ _ _ _) (eq_packCmd_of_op h) rfl rfl
  · exact encode_decode_of_eq (i := .reserved6 _ _ _ _) (eq_packCmd_of_op h) rfl rfl
  · exact encode_decode_of_eq (i := .reserved7 _ _ _ _) (eq_packCmd_of_op h) rfl rfl

/-- Settles O7: the nine words, decoded by evaluation. -/
theorem sampleWordsDecode : Obligations.SampleWordsDecode := ⟨rfl, rfl, rfl, rfl, rfl, rfl, rfl, rfl, rfl⟩

/-! ## The assembler -/

/-- Settles O9: the assembler packs, and a packed word has its fields in place. -/
theorem assemblerWords : Obligations.AssemblerWords := by
  refine ⟨?_, ?_, ?_, ?_, ?_, ?_, ?_, ?_, fun byte => ?_⟩
  case refine_9 =>
    rw [← zext16_eq_append]
    exact fieldsAre_packCmd _ _ _ _ _
  all_goals
    intros
    exact fieldsAre_packCmd _ _ _ _ _

/-- Settles O10: a line has the word of its expansion by the assembler's own equations; each word is packed, decodes to RDI, RDH, WSR or USR, and that command's frame is the table's. -/
theorem pseudoInstructionFrames : Obligations.PseudoInstructionFrames := by
  refine ⟨fun l => by cases l <;> rfl, fun cur v new s => ⟨?_, ?_, ?_, ?_, ?_, ?_⟩⟩
  · have hdecode : decode (assemble (.poll cur)) = .rdi cur 0#16 10#16 := decode_packCmd_rdi _ _ _
    exact hdecode ▸ buildsFrame_rdi cur 0#16 10#16 s
  · have hdecode : decode (assemble (.getAlarm cur)) = .rdh cur Config.regHoldStart 2#16 := decode_packCmd_rdh _ _ _
    exact hdecode ▸ buildsFrame_rdh cur Config.regHoldStart 2#16 s
  · have hdecode : decode (assemble (.setAlarm cur v)) = .wsr cur 0x06#8 Config.regThreshold v :=
      decode_packCmd_wsr _ _ _ _
    exact hdecode ▸ buildsFrame_wsr cur 0x06#8 Config.regThreshold v s
  · have hdecode : decode (assemble .getAddr) = .rdh 0xF8#8 Config.regHoldStart 2#16 := decode_packCmd_rdh _ _ _
    exact hdecode ▸ buildsFrame_rdh 0xF8#8 Config.regHoldStart 2#16 s
  · have hdecode : decode (assemble (.setAddr cur new)) = .wsr cur 0x06#8 Config.regAddress new :=
      decode_packCmd_wsr _ _ _ _
    exact hdecode ▸ buildsFrame_wsr cur 0x06#8 Config.regAddress new s
  · have hdecode : decode (assemble (.resetEnergy cur)) = .usr cur Config.fcRst 0#16 0#16 := decode_packCmd_usr _ _ _ _
    rw [hdecode, ← usrBody_of_ne cur Config.fcRst Config.fcRst_ne_fcCal]
    exact buildsFrame_usr cur Config.fcRst _ _ s

end Sys2Proof.Machine
end

section
/-! SUPPORT. The laws of the checksum (`40_crc_engine.md` R71), and what a builder leaves in `CRC` (`10_state.md` R11). -/

namespace Sys2Proof.Machine

/-! ## Linearity and bijectivity -/

/-- Absorbing 0x00 is the eight iterations alone. -/
theorem bytestep_zero_byte (c : Word) : bytestep c 0x00#8 = bitsteps 8 c :=
  (bytestep_eq c 0x00#8).trans (congrArg (bitsteps 8) BitVec.xor_zero)

/-- Settles O17: the iterations are linear, and the byte enters by one XOR before them. -/
theorem bitstepAndBytestepLinear : Obligations.BitstepAndBytestepLinear := by
  refine ⟨bitstep_xor, fun c b => ?_, fun c d b => ?_⟩
  · rw [bytestep_zero_byte, bytestep_eq]
  · rw [bytestep_zero_byte, bytestep_eq, bytestep_eq, ← bitsteps_xor, BitVec.xor_assoc, BitVec.xor_assoc,
      BitVec.xor_comm d]

/-- Settles O18: no two registers merge, and there are finitely many. -/
theorem bitstepAndBytestepBijective : Obligations.BitstepAndBytestepBijective :=
  ⟨Function.Injective.bijective_of_finite bitstep_injective, fun b => (bytestep_injective_register b).bijective_of_finite⟩

/-! ## Zero residue -/

theorem bitsteps_eq_zero_iff (n : Nat) (c : Word) : bitsteps n c = 0x0000#16 ↔ c = 0x0000#16 := by
  have hzero : bitsteps n 0x0000#16 = 0x0000#16 := by
    rw [bitsteps_of_low_zero n _ fun i _ => BitVec.getLsbD_zero, BitVec.zero_ushiftRight]
  exact ⟨fun h => bitsteps_injective n (h.trans hzero.symm), fun h => h ▸ hzero⟩

/-- The iterations carry a byte from the high half of a register to the low half, untouched. -/
theorem bitsteps_append_zero (y : Byte) : bitsteps 8 (y ++ 0x00#8 :) = zext16 y := by
  rw [bitsteps_of_low_zero 8 _ fun i hi => by rw [BitVec.getLsbD_append, if_pos hi, BitVec.getLsbD_zero]]
  refine BitVec.eq_of_getLsbD_eq fun i hi => ?_
  rw [getLsbD_zext16 y hi, BitVec.getLsbD_ushiftRight, BitVec.getLsbD_append, if_neg (by omega), Nat.add_sub_cancel_left]

/-- A word is two given bytes exactly when they are its low and its high byte. -/
theorem eq_append_iff (c : Word) (x y : Byte) : c = (y ++ x :) ↔ x = lo8 c ∧ y = hi8 c := by
  constructor
  · rintro rfl
    exact ⟨BitVec.extractLsb'_append_eq_right.symm, BitVec.extractLsb'_append_eq_left.symm⟩
  · rintro ⟨rfl, rfl⟩
    exact (hi8_append_lo8 c).symm

/-- Two bytes bring a register to 0x0000 exactly when they are its own trailer: the second has to cancel the register the
first leaves, and the first the register's low half (`40_crc_engine.md` R71 (c)). -/
theorem bytestep_pair_eq_zero_iff (c : Word) (x y : Byte) :
    bytestep (bytestep c x) y = 0x0000#16 ↔ x = lo8 c ∧ y = hi8 c := by
  have hsecond : bytestep (bytestep c x) y = 0x0000#16 ↔ bytestep c x = zext16 y := by
    rw [bytestep_eq _ y, bitsteps_eq_zero_iff, BitVec.xor_eq_zero_iff]
  have hfirst : bytestep c x = zext16 y ↔ c ^^^ zext16 x = (y ++ 0x00#8 :) := by
    rw [← bitsteps_append_zero y, bytestep_eq, (bitsteps_injective 8).eq_iff]
  have hpair : (y ++ x :) ^^^ zext16 x = (y ++ 0x00#8 :) := by
    rw [zext16_eq_append, BitVec.xor_append, BitVec.xor_zero, BitVec.xor_self]
  rw [hsecond, hfirst, ← hpair, BitVec.xor_left_inj, eq_append_iff]

/-- A message and two more bytes leave 0x0000 exactly when the bytes are the message's trailer. -/
theorem crc16_append_pair_eq_zero_iff (m : List Byte) (x y : Byte) :
    crc16 (m ++ [x, y]) = 0x0000#16 ↔ x = lo8 (crc16 m) ∧ y = hi8 (crc16 m) := by
  rw [← bytestep_pair_eq_zero_iff, ← crc16_concat, ← crc16_concat, List.append_assoc, List.cons_append, List.nil_append]

/-- A buffer of two bytes or more is a body and a trailer. -/
theorem exists_body_append_pair {buf : List Byte} (h : 2 ≤ buf.length) : ∃ body x y, buf = body ++ [x, y] := by
  obtain ⟨x, y, hlast⟩ := List.length_eq_two.mp ((List.length_drop ..).trans (Nat.sub_sub_self h))
  exact ⟨_, x, y, hlast ▸ (List.take_append_drop _ buf).symm⟩

/-- Settles O19: the checksum of a buffer and the check of it ask the same of the last two bytes. -/
theorem zeroResidueOfOwnTrailer : Obligations.ZeroResidueOfOwnTrailer := by
  refine ⟨fun m => (crc16_append_pair_eq_zero_iff m _ _).mpr ⟨rfl, rfl⟩, fun buf hlen => ?_⟩
  obtain ⟨body, x, y, rfl⟩ := exists_body_append_pair hlen
  rw [crcCheck_append_pair, beq_eq_decide]
  exact congrArg some (decide_eq_decide.mpr (crc16_append_pair_eq_zero_iff body x y).symm)

/-- Settles O20: `crc16_flipBit_ne`, an induction over the message. -/
theorem singleBitFlipChangesCrc : Obligations.SingleBitFlipChangesCrc := fun _ _ _ hj hk => crc16_flipBit_ne hj hk

/-! ## `CRC` after a builder -/

/-- The frame after building in its two parts: the body and its little-endian trailer (`20_memory.md` R32). -/
theorem memRead_builtMemory_parts (body : List Byte) (hfit : body.length + 2 ≤ 8) :
    memRead (builtMemory body) 0 body.length = body ∧
      memRead (builtMemory body) body.length 2 = le16 (crc16 body) := by
  have hframe := memRead_builtMemory body hfit
  rw [memRead_append, Nat.zero_add] at hframe
  exact List.append_inj hframe (length_memRead _ _ _ (by omega))

/-- The two bytes behind the body are its trailer, in order (`20_memory.md` R32). -/
theorem fbRead_builtMemory_trailer (body : List Byte) (hfit : body.length + 2 ≤ 8) {i : Nat} (hi : i < 2) {j : Fin 8}
    (hj : j.val = body.length + i) : some (fbRead (builtMemory body) j) = (le16 (crc16 body))[i]? := by
  obtain ⟨-, htrailer⟩ := memRead_builtMemory_parts body hfit
  rw [← htrailer, getElem?_memRead _ _ _ i hi hfit]
  exact congrArg (fun j => some (fbRead (builtMemory body) j)) (Fin.ext hj)

/-- A block with a built frame holds the frame's trailer in `CRC` (`10_state.md` R11). -/
theorem crc_eq_trailer_of_built {s : Block} {body : List Byte} (hfit : body.length + 2 ≤ 8) (hcrc : s.crc = crc16 body)
    (hfb : s.fb = builtMemory body) (hflen : s.flen.toNat = body.length + 2) :
    s.crc = crc16 (memRead s.fb 0 (s.flen.toNat - 2)) ∧
      ∀ hi lo : Fin 8, hi.val + 1 = s.flen.toNat → lo.val + 2 = s.flen.toNat →
        s.crc = (fbRead s.fb hi ++ fbRead s.fb lo :) := by
  obtain ⟨hbody, -⟩ := memRead_builtMemory_parts body hfit
  rw [hcrc, hfb, hflen]
  refine ⟨congrArg crc16 hbody.symm, fun hi lo hhi hlo => ?_⟩
  have hlow := fbRead_builtMemory_trailer body hfit (Nat.zero_lt_succ 1) (Nat.add_right_cancel hlo)
  have hhigh := fbRead_builtMemory_trailer body hfit (Nat.lt_succ_self 1) (Nat.add_right_cancel hhi)
  rw [Option.some.inj hlow, Option.some.inj hhigh, hi8_append_lo8]

/-- Settles O34: a builder's frame is a body and its trailer, and `CRC` is the body's checksum. -/
theorem crcHoldsTrailerAfterBuilder : Obligations.CrcHoldsTrailerAfterBuilder := by
  intro i s hb
  obtain ⟨body, rlen, hlen, hexec⟩ := exec_builds i hb
  have hfit : body.length + 2 ≤ 8 := by omega
  exact ⟨_, hexec s, crc_eq_trailer_of_built hfit rfl rfl
    ((BitVec.toNat_ofNat _ _).trans (Nat.mod_eq_of_lt (Nat.lt_succ_of_le (hfit.trans (Nat.le_add_right 8 7)))))⟩

end Sys2Proof.Machine
end

section
/-! SUPPORT. The step (`10_state.md` R17, R20 (a); `20_memory.md` R39; `42_serial_sequencer.md` R100), and the status port
(`10_state.md` R15). -/

namespace Sys2Proof.Machine

/-! ## What a command leaves of the state beside the architectural registers -/

/-- Settles O58: the three kinds of command, by what each writes. -/
theorem commandLeavesSequencerRegisters : Obligations.CommandLeavesSequencerRegisters := by
  intro i s
  cases hb : builds i with
  | true =>
    obtain ⟨_, _, -, hexec⟩ := exec_builds i hb
    exact ⟨_, hexec s, rfl, rfl, rfl, rfl, rfl⟩
  | false =>
    cases hs : streams i with
    | true =>
      obtain ⟨_, hexec⟩ := exec_streams i hs
      exact ⟨_, hexec s, rfl, rfl, rfl, rfl, rfl⟩
    | false =>
      obtain ⟨_, -, hexec⟩ := exec_faults i hb hs
      exact ⟨_, hexec s, rfl, rfl, rfl, rfl, rfl⟩

/-- A transaction leaves `PHASE`, whatever kind of command it is. -/
theorem exec_leaves_phase {i : Instr} {s t : State} (ht : exec i s = .next t) : t.phase = s.phase := by
  obtain ⟨u, hu, hphase, -⟩ := commandLeavesSequencerRegisters i s
  obtain rfl := Host.Outcome.next.inj (hu.symm.trans ht)
  exact hphase

theorem commandEffect_of_exec {w : CmdWord} {b : Block} {t : State} (h : exec (decode w) ⟨b, []⟩ = .next t) :
    commandEffect w b = t.toBlock := by
  delta commandEffect
  rw [h]

/-- A command word run as one transaction has its effect on the block, and the host's list stays (`10_state.md` R20 (a)). -/
theorem exec_decode_eq_commandEffect (w : CmdWord) (s : State) :
    exec (decode w) s = .next ⟨commandEffect w s.toBlock, s.script⟩ := by
  obtain ⟨f, hexec⟩ := exec_block (decode w)
  rw [commandEffect_of_exec (hexec ⟨s.toBlock, []⟩)]
  exact hexec s

theorem commandEffect_phase (w : CmdWord) (b : Block) : (commandEffect w b).phase = b.phase :=
  exec_leaves_phase (exec_decode_eq_commandEffect w ⟨b, []⟩)

/-! ## One step, by the host's next action -/

theorem busy_of_ne_idle {b : Block} (h : b.phase ≠ .idle) : b.busy = true := bne_iff_ne.mpr h

/-- No action left: one quiet clock. -/
theorem step_nil (b : Block) : step ⟨b, []⟩ = .next ⟨clock .quiet b, []⟩ := rfl

/-- A clock action is one clock with its pins (`42_serial_sequencer.md` R100). -/
theorem step_clock (b : Block) (p : Pins) (rest : List HostAction) :
    step ⟨b, .clock p :: rest⟩ = .next ⟨clock p b, rest⟩ := rfl

/-- A command waits while the block is busy, and one clock passes (`70_reset_and_hazards.md` R138). -/
theorem step_command_of_busy {b : Block} (h : b.phase ≠ .idle) (w : CmdWord) (rest : List HostAction) :
    step ⟨b, .command w :: rest⟩ = .next ⟨clock .quiet b, .command w :: rest⟩ :=
  if_pos (busy_of_ne_idle h)

/-- While the block is busy the command port plays no part in a clock (`42_serial_sequencer.md` R106). -/
theorem clock_of_busy {b : Block} (h : b.phase ≠ .idle) {p q : Pins} (hrst : p.rst = q.rst) : clock p b = clock q b := by
  rw [clock, clock, hrst]
  cases hphase : b.phase with
  | idle => exact absurd hphase h
  | fill | xor | shift | trailer => rfl

/-- An idle block without a command and without reset stays as it is (`42_serial_sequencer.md` R100). -/
theorem clock_of_idle_without_command {b : Block} {p : Pins} (hidle : b.phase = .idle) (hrst : p.rst = false)
    (hvalid : p.cmdValid = false) : clock p b = b := by
  simp [clock, hidle, hrst, hvalid]

/-- Settles O38: an idle block runs the command, a busy one lets it wait. -/
theorem stepRunsDecodedCommand : Obligations.StepRunsDecodedCommand := by
  rintro ⟨b, script⟩ w rest rfl
  exact ⟨fun hidle => step_command_of_idle hidle w rest, fun hbusy => step_command_of_busy hbusy w rest⟩

/-- A word of the port is presented as it is. -/
theorem portWord_toNat (w : CmdWord) : portWord (w.toNat % 2 ^ 56) = .ok w := by
  rw [Nat.mod_eq_of_lt (w.isLt.trans (Nat.pow_lt_pow_right Nat.one_lt_two (Nat.lt_add_of_pos_right (Nat.zero_lt_succ 4))))]
  exact (if_pos w.isLt).trans (congrArg Except.ok ((BitVec.ofNat_toNat ..).trans (BitVec.setWidth_eq w)))

/-- The block is made idle, and the word put first in its list (log 1). -/
theorem withFetchWord_toNat (s : State) (w : CmdWord) :
    s.withFetchWord 56 w.toNat = { s with phase := .idle, script := .command w :: s.script } := by
  delta State.withFetchWord
  rw [portWord_toNat]

/-- Settles O39: the placed word stands first in the list of an idle block. -/
theorem fetchedWordRunsNext : Obligations.FetchedWordRunsNext := by
  intro s w
  rw [withFetchWord_toNat]
  exact step_command_of_idle (b := { s.toBlock with phase := .idle }) rfl w s.script

/-- Settles O40: each command has its effect, and leaves an idle block idle for the next one. -/
theorem runOfCommandsComposes : Obligations.RunOfCommandsComposes := by
  intro ws rest s hidle
  induction ws generalizing s with
  | nil => rfl
  | cons w ws ih =>
    have hstep : step { s with script := .command w :: (ws.map .command ++ rest) } =
        .next ⟨commandEffect w s.toBlock, ws.map .command ++ rest⟩ :=
      (step_command_of_idle hidle w _).trans (exec_decode_eq_commandEffect w _)
    exact (run_succ _ _ _ hstep).trans (ih ⟨commandEffect w s.toBlock, []⟩ ((commandEffect_phase w s.toBlock).trans hidle))

/-- An idle block takes the command as one atomic step (D1). -/
theorem blockStep_command_of_idle {b : Block} (h : b.phase = .idle) (w : CmdWord) :
    blockStep (.command w) b = commandEffect w b :=
  if_neg (by rw [busy_of_idle h]; exact Bool.false_ne_true)

/-- A busy block does not accept the command: it takes the clock it would take with a quiet port (R106). -/
theorem blockStep_command_of_busy {b : Block} (h : b.phase ≠ .idle) (w : CmdWord) :
    blockStep (.command w) b = clock .quiet b :=
  (if_pos (busy_of_ne_idle h)).trans (clock_of_busy (p := ⟨false, true, w⟩) (q := .quiet) h rfl)

/-- In a step the block's next state is its own step on the input, which is taken off the list unless it is a command that
waits (`10_state.md` R20 (a)). -/
theorem step_cons (b : Block) (x : HostAction) (rest : List HostAction) :
    ∃ t, step ⟨b, x :: rest⟩ = .next t ∧ t.toBlock = blockStep x b ∧
      (((∀ w, x ≠ .command w) ∨ b.phase = .idle) → t.script = rest) ∧
      ((∃ w, x = .command w) → b.phase ≠ .idle → t.script = x :: rest) := by
  cases x with
  | reset => exact ⟨_, step_reset rfl, rfl, fun _ => rfl, fun ⟨_, h⟩ => HostAction.noConfusion h⟩
  | clock p => exact ⟨_, step_clock b p rest, rfl, fun _ => rfl, fun ⟨_, h⟩ => HostAction.noConfusion h⟩
  | command w =>
    by_cases hidle : b.phase = .idle
    · exact ⟨_, (step_command_of_idle hidle w rest).trans (exec_decode_eq_commandEffect w _),
        (blockStep_command_of_idle hidle w).symm, fun _ => rfl, fun _ hbusy => absurd hidle hbusy⟩
    · exact ⟨_, step_command_of_busy hidle w rest, (blockStep_command_of_busy hidle w).symm,
        fun h => (h.resolve_right hidle w rfl).elim, fun _ _ => rfl⟩

/-- Settles O42: a list is empty or has a next action, and each has its step. -/
theorem stepAlwaysHasNextState : Obligations.StepAlwaysHasNextState := by
  refine ⟨?_, fun b p => clock_of_idle_without_command, ?_⟩
  · rintro ⟨b, _ | ⟨x, rest⟩⟩
    · exact ⟨_, step_nil b⟩
    · obtain ⟨t, ht, -⟩ := step_cons b x rest
      exact ⟨t, ht⟩
  · rintro ⟨b, script⟩ p rest rfl
    exact step_clock b p rest

/-- Settles O57: `step_cons` for the inputs, and `exec_block` for the commands. -/
theorem inputIsNoStateOfTheBlock : Obligations.InputIsNoStateOfTheBlock := by
  refine ⟨step_cons, step_nil, fun i b => ?_⟩
  obtain ⟨f, hexec⟩ := exec_block i
  exact ⟨f b, fun script => hexec ⟨b, script⟩⟩

/-! ## The status port -/

/-- The three fields of the status word (`10_state.md` R15). -/
theorem statusWord_fields (s : Block) :
    (statusWord s).extractLsb' 0 2 = s.code ∧ (statusWord s).getLsbD 2 = s.busy ∧ (statusWord s).getLsbD 3 = s.eflag := by
  rw [statusWord]
  generalize s.code = code, s.busy = busy, s.eflag = eflag
  revert code busy eflag
  decide

theorem busy_eq_decide (b : Block) : b.busy = decide (b.phase ≠ .idle) := by
  by_cases h : b.phase = .idle
  · exact (busy_of_idle h).trans (decide_eq_false (not_not_intro h)).symm
  · exact (busy_of_ne_idle h).trans (decide_eq_true h).symm

/-- Settles O56: the fields of the assembled word, and `BUSY` as it is derived from `PHASE`. -/
theorem statusPortFields : Obligations.StatusPortFields := by
  intro s
  obtain ⟨hcode, hbusy, heflag⟩ := statusWord_fields s
  exact ⟨hcode, hbusy.trans (busy_eq_decide s), heflag, congrArg not hbusy.symm⟩

end Sys2Proof.Machine
end

section
/-! SUPPORT. The invariant (`10_state.md` R26): it holds after reset, every command keeps it, and so does every micro-step of
the sequencer (`42_serial_sequencer.md` R101 to R105). -/

namespace Sys2Proof.Machine

/-! ## The parts of the invariant -/

section
variable {s : Block} {p : Phase}

/-- Where the sequencer stands, for a phase that is known. -/
theorem Inv.sequencer_at (h : Inv s) (hp : s.phase = p) : SequencerOk { s with phase := p } := hp ▸ h.sequencer

theorem inv_at (hp : s.phase = p) (hmem : s.fb.wf) (hstatus : StatusOk s) (hseq : SequencerOk { s with phase := p }) :
    Inv s :=
  ⟨hmem, hstatus, hp.symm.subst (motive := fun p => SequencerOk { s with phase := p }) hseq⟩

/-- The frame's soundness is about `FB`, `FLEN` and `RLEN` alone. -/
theorem FrameOk.set_others (h : FrameOk s) {crc : Word} {code : BitVec 2} {eflag : Bool} {idx bit : BitVec 3}
    {opr : CmdWord} : FrameOk ⟨crc, s.fb, s.flen, s.rlen, code, eflag, p, idx, bit, opr⟩ :=
  ⟨h.flen_legal, h.zero_past_frame, h.trailer_verifies, h.rlen_zero_iff, h.rlen_user, h.rlen_write, h.rlen_read⟩

/-- Code 0 is sound with any frame. -/
theorem statusOk_of_code_zero (h : s.code = 0#2) : StatusOk s := ⟨h ▸ by decide, fun hne => absurd h hne⟩

/-- The invariant of an idle block is about its frame (`10_state.md` R26). -/
theorem inv_of_idle (hidle : s.phase = .idle) (hmem : s.fb.wf) (hstatus : StatusOk s) (hframe : FrameOk s) : Inv s :=
  inv_at hidle hmem hstatus hframe.set_others

end

/-! ## The invariant after reset and after a fault -/

/-- An empty buffer with no frame announced is sound. -/
theorem frameOk_empty (s : Block) : FrameOk { s with fb := fbClear, flen := 0#4, rlen := 0#18 } where
  flen_legal := .inl rfl
  zero_past_frame i _ := fbRead_fbClear i
  trailer_verifies h := absurd rfl h
  rlen_zero_iff := iff_of_true rfl rfl
  rlen_user h := absurd h (show 0#4 ≠ 4#4 by decide)
  rlen_write h := absurd h (show 0#4 ≠ 8#4 by decide)
  rlen_read h := absurd h (show 0#4 ≠ 8#4 by decide)

/-- Fault entry leaves an idle block sound (`60_exceptions.md` R119). -/
theorem inv_raise {code : BitVec 2} {s : Block} (hcode : code = codeInvalidArgument ∨ code = codeIllegalCommand)
    (hidle : s.phase = .idle) : Inv (raise code s) := by
  have hlegal : code ≠ 3#2 := by rcases hcode with rfl | rfl <;> decide
  exact inv_of_idle hidle fbClear_wf ⟨hlegal, fun _ => ⟨rfl, rfl⟩⟩ (frameOk_empty (raise code s))

/-- Settles O43: after reset the buffer is empty, no frame is announced, and the code is 0. -/
theorem invariantAtReset : Obligations.InvariantAtReset :=
  inv_of_idle (s := Block.reset) rfl fbClear_wf (statusOk_of_code_zero rfl) (frameOk_empty Block.reset)

/-! ## The frames the builders leave are sound -/

theorem crcCheck_builtMemory (body : List Byte) (hfit : body.length + 2 ≤ 8) :
    crcCheck (memRead (builtMemory body) 0 (body.length + 2)) = some true :=
  (congrArg crcCheck (memRead_builtMemory body hfit)).trans (crcCheck_append_trailer body)

theorem rlenRead_ne_zero (count : Word) : rlenRead count ≠ 0#18 := fun h =>
  Nat.ne_of_gt (Nat.lt_add_right _ (Nat.zero_lt_succ 4)) ((toNat_rlenRead count).symm.trans (congrArg BitVec.toNat h))

/-- A body byte of an 8-byte frame. -/
theorem fbRead_builtMemory_regBody (addr fc : Byte) (a b : Word) {i : Fin 8} (hi : i.val < 6) :
    fbRead (builtMemory (regBody addr fc a b)) i = (regBody addr fc a b)[i.val]'hi :=
  fbRead_builtMemory_body (regBody addr fc a b) (Nat.le_refl 8) i hi

theorem toNat_eq_hi8_lo8 (w : Word) : w.toNat = 256 * (hi8 w).toNat + (lo8 w).toNat := by
  have hhi : (hi8 w).toNat = w.toNat / 256 :=
    (BitVec.extractLsb'_toNat ..).trans ((congrArg (· % 256) (Nat.shiftRight_eq_div_pow ..)).trans
      (Nat.mod_eq_of_lt (Nat.div_lt_of_lt_mul w.isLt)))
  have hlo : (lo8 w).toNat = w.toNat % 256 := BitVec.extractLsb'_toNat ..
  rw [hhi, hlo, Nat.div_add_mod]

section
variable (s : Block) (addr fc : Byte) (a b : Word)

/-- A read's frame (`20_memory.md` R37): `RLEN` counts the words of the answer (`41_frame_builder.md` R88). -/
theorem frameOk_read (hfc : fc ≠ 0x06#8) :
    FrameOk { s with fb := builtMemory (regBody addr fc a b), flen := 8#4, rlen := rlenRead b } := by
  constructor <;> dsimp only
  case flen_legal => exact .inr (.inr rfl)
  case zero_past_frame => exact fbRead_builtMemory_past (regBody addr fc a b) (Nat.le_refl 8)
  case trailer_verifies => exact fun _ => crcCheck_builtMemory (regBody addr fc a b) (Nat.le_refl 8)
  case rlen_zero_iff => exact iff_of_false (rlenRead_ne_zero b) (by decide)
  case rlen_user => exact fun h => absurd h (by decide)
  case rlen_write => exact fun _ h6 => absurd ((fbRead_builtMemory_regBody (i := 1) addr fc a b (by decide)).symm.trans h6) hfc
  case rlen_read =>
    rw [fbRead_builtMemory_regBody (i := 4) addr fc a b (by decide), fbRead_builtMemory_regBody (i := 5) addr fc a b (by decide)]
    exact fun _ _ => (toNat_rlenRead b).trans (congrArg (5 + 2 * ·) (toNat_eq_hi8_lo8 b))

/-- WSR's frame. -/
theorem frameOk_write :
    FrameOk { s with fb := builtMemory (regBody addr 0x06#8 a b), flen := 8#4, rlen := rlenWrite } := by
  constructor <;> dsimp only
  case flen_legal => exact .inr (.inr rfl)
  case zero_past_frame => exact fbRead_builtMemory_past (regBody addr 0x06#8 a b) (Nat.le_refl 8)
  case trailer_verifies => exact fun _ => crcCheck_builtMemory (regBody addr 0x06#8 a b) (Nat.le_refl 8)
  case rlen_zero_iff => exact iff_of_false (by decide) (by decide)
  case rlen_user => exact fun h => absurd h (by decide)
  case rlen_write => exact fun _ _ => rfl
  case rlen_read => exact fun _ hne => absurd (fbRead_builtMemory_regBody (i := 1) addr 0x06#8 a b (by decide)) hne

/-- USR's frame. -/
theorem frameOk_user : FrameOk { s with fb := builtMemory [addr, fc], flen := 4#4, rlen := rlenUser } := by
  constructor <;> dsimp only
  case flen_legal => exact .inr (.inl rfl)
  case zero_past_frame => exact fbRead_builtMemory_past [addr, fc] (Nat.le_of_ble_eq_true rfl)
  case trailer_verifies => exact fun _ => crcCheck_builtMemory [addr, fc] (Nat.le_of_ble_eq_true rfl)
  case rlen_zero_iff => exact iff_of_false (by decide) (by decide)
  case rlen_user => exact fun _ => rfl
  case rlen_write => exact fun h => absurd h (by decide)
  case rlen_read => exact fun h => absurd h (by decide)

end

/-! ## The commands keep the invariant -/

/-- An idle block that builds a sound frame meets the invariant. -/
theorem inv_of_buildFrame {s t : State} {n : Nat} {body : List Byte} {rlen : BitVec 18} (hidle : s.phase = .idle)
    (ht : completeWith s (buildFrame n body rlen) = .next t) (hn : n = body.length + 2) (hfit : n ≤ 8)
    (hframe : FrameOk { s.toBlock with fb := builtMemory body, flen := BitVec.ofNat 4 n, rlen := rlen }) :
    Inv t.toBlock := by
  rw [completeWith_eq, buildFrame_eq body n rlen s.toBlock hn hfit] at ht
  obtain rfl := Host.Outcome.next.inj ht
  exact inv_of_idle hidle (builtMemory_wf body) (statusOk_of_code_zero rfl) hframe.set_others

theorem inv_of_exec_builds {i : Instr} {s t : State} (h : builds i = true) (hidle : s.phase = .idle)
    (ht : exec i s = .next t) : Inv t.toBlock := by
  cases i with
  | rdh addr start count =>
    exact inv_of_buildFrame hidle ht rfl (Nat.le_refl 8) (frameOk_read _ addr 0x03#8 start count (by decide))
  | rdi addr start count =>
    exact inv_of_buildFrame hidle ht rfl (Nat.le_refl 8) (frameOk_read _ addr 0x04#8 start count (by decide))
  | wsr addr _ reg value => exact inv_of_buildFrame hidle ht rfl (Nat.le_refl 8) (frameOk_write _ addr reg value)
  | usr addr fc _ _ => exact inv_of_buildFrame hidle ht rfl (by decide) (frameOk_user _ _ fc)
  | usrCal _ _ _ | usrRst _ _ _ => exact inv_of_buildFrame hidle ht rfl (by decide) (frameOk_user _ _ _)
  | rdregIllegal _ _ _ _ | crcInit _ _ _ _ | crcUpd _ _ _ _ _ | reserved5 _ _ _ _ | reserved6 _ _ _ _
  | reserved7 _ _ _ _ => exact absurd h Bool.false_ne_true

/-- A command run on an idle block keeps the invariant: a builder leaves its frame, a streaming command the frame that is
there, a faulting one no frame. -/
theorem exec_keeps_inv {i : Instr} {s t : State} (hidle : s.phase = .idle) (h : Inv s.toBlock) (ht : exec i s = .next t) :
    Inv t.toBlock := by
  cases hb : builds i with
  | true => exact inv_of_exec_builds hb hidle ht
  | false =>
    cases hs : streams i with
    | true =>
      obtain ⟨f, hexec⟩ := exec_streams i hs
      obtain rfl := Host.Outcome.next.inj ((hexec s).symm.trans ht)
      exact inv_at hidle h.memory_canonical (statusOk_of_code_zero rfl) (h.sequencer_at hidle).set_others
    | false =>
      obtain ⟨code, hcode, hexec⟩ := exec_faults i hb hs
      obtain rfl := Host.Outcome.next.inj ((hexec s).symm.trans ht)
      exact inv_raise hcode hidle

/-- Settles O45: `exec_keeps_inv`, and the phase a command leaves. -/
theorem commandKeepsFrameInvariant : Obligations.CommandKeepsFrameInvariant := by
  intro i s hidle h
  obtain ⟨t, ht, hphase, -⟩ := commandLeavesSequencerRegisters i s
  exact ⟨t, ht, hphase.trans hidle, exec_keeps_inv hidle h ht⟩

end Sys2Proof.Machine
end
